-- ==== Sys2Proof/Word.lean ====
section
/-!
DEFINITION. Bytes and words of the block (spec/00_scope.md R7, R8) and the named constants of
spec/40_arithmetic.md's introduction.
-/

namespace Sys2Proof

/-- `u8` of R8: one byte, an element of memory, an opcode or an operand byte. -/
abbrev Byte := BitVec 8

/-- `u64` of R8: the pattern a general register or the program counter holds. -/
abbrev Word := BitVec 64

/-- `s64(v)` of R8: the two's-complement reading, used only for display (R25).
PRESUMED by the spec itself ("from general knowledge"), log entry 13. -/
def s64 (v : Word) : Int :=
  if v.toNat < 2 ^ 63 then (v.toNat : Int) else (v.toNat : Int) - 2 ^ 64

/-- `MAX` of spec/40_arithmetic.md, the greatest `s64`. -/
def maxWord : Word := 0x7FFFFFFFFFFFFFFF

/-- `MIN` of spec/40_arithmetic.md, the least `s64`. -/
def minWord : Word := 0x8000000000000000

/-- `NEG1` of spec/40_arithmetic.md, the pattern of -1. -/
def neg1Word : Word := 0xFFFFFFFFFFFFFFFF

end Sys2Proof
end

