-- ==== Sys2Proof/Config.lean ====
section
/-!
DEFINITION. The fixed names of the block (registers, error kinds) and its parameters: the selector
map SEL (spec/00_scope.md R5, spec/10_state.md R23) and the bound on the image's length (D3).
-/

namespace Sys2Proof

/-- The four general-purpose registers (R21). -/
inductive Reg where
  | r0
  | r1
  | r2
  | r3
  deriving DecidableEq, Repr

/-- The open part of the parameter SEL (R5, R23, D1): the selector bytes of R1, R2 and R3.
The byte of R0 is fixed by the source; `selByte` (Decode.lean) is the whole map. -/
structure SelMap where
  r1 : Byte
  r2 : Byte
  r3 : Byte
  deriving DecidableEq, Repr

/-- The greatest image length the spec admits, `2^64 - 3` (D3, log entry 5). -/
def maxImageLen : Nat := 2 ^ 64 - 3

/-- What an in-bounds address that the memory's list does not name reads as. Every in-bounds byte of
a loaded image is given by the image (R180), so this only fixes which bytes the list leaves out
(log entry 3). -/
def unlistedByte : Byte := 0

/-- The kinds of error, with the host's own one (R150, R154, C5). -/
inductive ErrKind where
  | outOfBounds
  | invalidRegister
  | unsupportedInstruction
  | imageLoadFailure
  deriving DecidableEq, Repr

/-- The numbers R150 gives the kinds for a model's convenience (D14: no hardware meaning). -/
def ErrKind.code : ErrKind → Nat
  | .outOfBounds => 1
  | .invalidRegister => 2
  | .unsupportedInstruction => 3
  | .imageLoadFailure => 4

/-- The error record of a fatal error of the block (R150, R158). -/
inductive Err where
  /-- R151: a read or write addressed a location at or beyond `L`; the address is a natural number. -/
  | outOfBounds (address : Nat)
  /-- R152: a selector byte is none of the four values of SEL. -/
  | invalidRegister (selector : Byte)
  /-- R153: the opcode byte is not in the opcode map. -/
  | unsupportedInstruction (opcode : Byte)
  deriving DecidableEq, Repr

/-- The record's kind (R158). -/
def Err.kind : Err → ErrKind
  | .outOfBounds _ => .outOfBounds
  | .invalidRegister _ => .invalidRegister
  | .unsupportedInstruction _ => .unsupportedInstruction

/-- The record's value (R158): the offending address, selector byte or opcode byte. -/
def Err.value : Err → Nat
  | .outOfBounds a => a
  | .invalidRegister b => b.toNat
  | .unsupportedInstruction op => op.toNat

end Sys2Proof
end

