-- ==== Sys2Proof/Syntax.lean ====
section
/-!
DEFINITION. The twelve instructions (spec/30_encoding.md R66), one constructor per row of
spec/opcode_table.json, and the four formats (R61).
-/

namespace Sys2Proof

/-- A register-selector operand byte, not resolved yet: R72 resolves it after decoding, against SEL. -/
abbrev Selector := Byte

/-- A literal operand byte, `imm8` (R62, R70). -/
abbrev Literal := Byte

/-- One instruction as it stands in memory: its operation and its operand bytes, in order (R60, R61).
Selectors stay bytes here because resolving them is a later action of the step (R72 action 4) and
depends on the parameter SEL (log entry 15). -/
inductive Instr where
  /-- 0x00 `ADD reg, imm` (R102). -/
  | addRegImm (rs : Selector) (imm8 : Literal)
  /-- 0x01 `ADD reg, reg` (R103). -/
  | addRegReg (rd rs2 : Selector)
  /-- 0x10 `INC reg` (R104). -/
  | incReg (rs : Selector)
  /-- 0x20 `DEC reg` (R105). -/
  | decReg (rs : Selector)
  /-- 0x30 `SUB reg, imm` (R106). -/
  | subRegImm (rs : Selector) (imm8 : Literal)
  /-- 0x31 `SUB reg, reg` (R107). -/
  | subRegReg (rd rs2 : Selector)
  /-- 0x40 `MOV reg, imm` (R120). -/
  | movRegImm (rs : Selector) (imm8 : Literal)
  /-- 0x41 `MOV reg, reg` (R121). -/
  | movRegReg (rd rs2 : Selector)
  /-- 0x50 `JMP imm` (R130). -/
  | jmpImm (imm8 : Literal)
  /-- 0x60 `CMP reg, imm` (R131). -/
  | cmpRegImm (rs : Selector) (imm8 : Literal)
  /-- 0x61 `CMP reg, reg` (R132). -/
  | cmpRegReg (rd rs2 : Selector)
  /-- 0x70 `JZ imm` (R133). -/
  | jzImm (imm8 : Literal)
  deriving DecidableEq, Repr

/-- The formats of R61, each with the instruction it makes of its operand bytes: what the opcode byte
alone decides (R69). -/
inductive Schema where
  /-- register, literal: 3 bytes. -/
  | ri (make : Selector → Literal → Instr)
  /-- register, register: 3 bytes. -/
  | rr (make : Selector → Selector → Instr)
  /-- register: 2 bytes. -/
  | r (make : Selector → Instr)
  /-- literal: 2 bytes. -/
  | i (make : Literal → Instr)

end Sys2Proof
end

