-- ==== Sys2Proof/Decode.lean ====
section
/-!
DEFINITION. The opcode map, the decoder and the encoder (spec/30_encoding.md R60 to R69), and the
selector bytes of the registers (spec/10_state.md R23).
-/

namespace Sys2Proof

/-! ### Selector bytes -/

/-- The selector byte the source gives for R0 (R23). -/
def selR0 : Byte := 0x02

/-- `SEL(r)` of R23 for the parameter `m`. -/
def selByte (m : SelMap) : Reg → Byte
  | .r0 => selR0
  | .r1 => m.r1
  | .r2 => m.r2
  | .r3 => m.r3

/-- The default the spec uses for its examples (R23, D1). DESIGN CHOICE of the spec, log entry 1. -/
def defaultSel : SelMap := { r1 := 0x03, r2 := 0x04, r3 := 0x05 }

/-! ### The opcode map (R66) -/

/-- The table of R66: opcode byte and schema, in the order of the spec. -/
def opcodeTable : List (Byte × Schema) :=
  [ (0x00, .ri .addRegImm),
    (0x01, .rr .addRegReg),
    (0x10, .r .incReg),
    (0x20, .r .decReg),
    (0x30, .ri .subRegImm),
    (0x31, .rr .subRegReg),
    (0x40, .ri .movRegImm),
    (0x41, .rr .movRegReg),
    (0x50, .i .jmpImm),
    (0x60, .ri .cmpRegImm),
    (0x61, .rr .cmpRegReg),
    (0x70, .i .jzImm) ]

/-- The schema of an opcode byte; none for the 244 unsupported bytes (R67, R68). -/
def schemaOf (op : Byte) : Option Schema := opcodeTable.lookup op

/-- The length in bytes of an instruction of this format (R61, R69). -/
def schemaLength : Schema → Nat
  | .ri _ => 3
  | .rr _ => 3
  | .r _ => 2
  | .i _ => 2

/-! ### The decoder -/

/-- Reads operand byte 1 and makes the instruction (R62, R72 action 3). -/
def readOne (read : Nat → Except Err Byte) (make : Byte → Instr) : Except Err Instr :=
  match read 1 with
  | .error e => .error e
  | .ok b1 => .ok (make b1)

/-- Reads operand bytes 1 and 2, in address order, and makes the instruction (R62, R72 action 3). -/
def readTwo (read : Nat → Except Err Byte) (make : Byte → Byte → Instr) : Except Err Instr :=
  match read 1 with
  | .error e => .error e
  | .ok b1 =>
    match read 2 with
    | .error e => .error e
    | .ok b2 => .ok (make b1 b2)

/-- Reads the operand bytes a schema asks for. -/
def readOperands (read : Nat → Except Err Byte) : Schema → Except Err Instr
  | .ri make => readTwo read make
  | .rr make => readTwo read make
  | .r make => readOne read make
  | .i make => readOne read make

/-- Actions (1) to (3) of R72 over any reader of the instruction's bytes (`read k` is byte `k`): the
opcode byte, the schema lookup, then the operand bytes. The first error met is the answer. -/
def decodeFrom (read : Nat → Except Err Byte) : Except Err Instr :=
  match read 0 with
  | .error e => .error e
  | .ok op =>
    match schemaOf op with
    | none => .error (.unsupportedInstruction op)
    | some schema => readOperands read schema

/-- Byte `k` of a list of bytes, read as an image of its own whose addresses start at 0. -/
def byteAt (bytes : List Byte) (k : Nat) : Except Err Byte :=
  match bytes[k]? with
  | some b => .ok b
  | none => .error (.outOfBounds k)

/-- The decoder on a list of bytes, total: it answers the instruction that the first bytes encode, or
the error by name (an opcode of no instruction, or the first byte that is missing). -/
def decode (bytes : List Byte) : Except Err Instr := decodeFrom (byteAt bytes)

/-! ### The encoder -/

/-- The bytes of an instruction (R61, R66). -/
def encode : Instr → List Byte
  | .addRegImm rs imm8 => [0x00, rs, imm8]
  | .addRegReg rd rs2 => [0x01, rd, rs2]
  | .incReg rs => [0x10, rs]
  | .decReg rs => [0x20, rs]
  | .subRegImm rs imm8 => [0x30, rs, imm8]
  | .subRegReg rd rs2 => [0x31, rd, rs2]
  | .movRegImm rs imm8 => [0x40, rs, imm8]
  | .movRegReg rd rs2 => [0x41, rd, rs2]
  | .jmpImm imm8 => [0x50, imm8]
  | .cmpRegImm rs imm8 => [0x60, rs, imm8]
  | .cmpRegReg rd rs2 => [0x61, rd, rs2]
  | .jzImm imm8 => [0x70, imm8]

/-- The length in bytes of an instruction, column "length" of R66. -/
def instrLength : Instr → Nat
  | .addRegImm _ _ => 3
  | .addRegReg _ _ => 3
  | .incReg _ => 2
  | .decReg _ => 2
  | .subRegImm _ _ => 3
  | .subRegReg _ _ => 3
  | .movRegImm _ _ => 3
  | .movRegReg _ _ => 3
  | .jmpImm _ => 2
  | .cmpRegImm _ _ => 3
  | .cmpRegReg _ _ => 3
  | .jzImm _ => 2

/-- The selector operand bytes of an instruction, in address order (R61, R65). -/
def selectorsOf : Instr → List Selector
  | .addRegImm rs _ => [rs]
  | .addRegReg rd rs2 => [rd, rs2]
  | .incReg rs => [rs]
  | .decReg rs => [rs]
  | .subRegImm rs _ => [rs]
  | .subRegReg rd rs2 => [rd, rs2]
  | .movRegImm rs _ => [rs]
  | .movRegReg rd rs2 => [rd, rs2]
  | .jmpImm _ => []
  | .cmpRegImm rs _ => [rs]
  | .cmpRegReg rd rs2 => [rd, rs2]
  | .jzImm _ => []

/-! ### Words of the opcode table -/

/-- The three bytes, first at the lowest address, of the number `w` of `nbits` bits as
spec/opcode_table.json numbers them (bits 7..0 are byte 0, 15..8 byte 1, 23..16 byte 2). -/
def tableBytes (nbits w : Nat) : List Byte :=
  let v := w % 2 ^ nbits
  [BitVec.ofNat 8 v, BitVec.ofNat 8 (v / 256), BitVec.ofNat 8 (v / 65536)]

/-- The instruction the decoder reads from a word of the opcode table. -/
def decodeTableWord (nbits w : Nat) : Option Instr :=
  match decode (tableBytes nbits w) with
  | .ok i => some i
  | .error _ => none

end Sys2Proof
end

