-- ==== Sys2Proof/Machine/State.lean ====
section
/-!
DEFINITION. The state of the block (spec/10_state.md R20) as plain data, with the trace port's
current snapshot (spec/60_exceptions.md R162) and the parameter SEL (spec/00_scope.md R5), the ways a
step can stop, and the state after reset (R37).
-/

namespace Sys2Proof.Machine

open Sys2Proof

/-- The general-purpose registers (R21). None is hard-wired (R22). -/
structure Gprs where
  r0 : Word
  r1 : Word
  r2 : Word
  r3 : Word
  deriving DecidableEq, Repr

/-- Memory (R40, R41): `len` is `L`; `cells` lists, by strictly rising address below `len`, the bytes
other than `unlistedByte` (`Memory.wf`). -/
structure Memory where
  len : Nat
  cells : List Host.Cell
  deriving DecidableEq, Repr

/-- The canonical form: addresses strictly rising, each below `L`, no byte equal to what an unlisted
address reads as. Equal memories are then equal data. -/
def Memory.wf (m : Memory) : Bool :=
  decide (m.cells.Pairwise fun x y => x.1 < y.1) &&
    m.cells.all fun c => decide (c.1 < m.len) && c.2 != unlistedByte

/-- The run status (R33). -/
inductive Status where
  | running
  | halted (err : Err)
  deriving DecidableEq, Repr

/-- The snapshot handed to the host after a completed step (R162). -/
structure Trace where
  opcode : Byte
  operands : List Byte
  gpr : Gprs
  pc : Word
  zf : Bool
  deriving DecidableEq, Repr

/-- The state of the block. -/
structure State where
  /-- memory (R40) -/
  mem : Memory
  /-- R0 to R3 (R21) -/
  gpr : Gprs
  /-- the program counter, 64 bits (R27, D2) -/
  pc : Word
  /-- the zero flag (R32) -/
  zf : Bool
  /-- the run status (R33) -/
  status : Status
  /-- the trace port (R162): what the last step handed to the host; `none` at reset and after a step
  that raised an error (R156). Output only: no step reads it (log entry 8) -/
  trace : Option Trace
  /-- the parameter SEL (R5, R23): fixed for the run, read by every resolution, never written
  (log entry 1) -/
  sel : SelMap
  deriving DecidableEq, Repr

/-- The ways the machine stops. -/
inductive Fault where
  /-- Raised by `step` in a state whose status is Halted: "A halted block has no step" (R157).
  Safe: the spec defines no step there. -/
  | halted (err : Err)
  /-- Raised by `startUp` when the host has no image (R154, R182): no load takes place and no step
  runs. Safe: the block never starts. -/
  | imageLoadFailure
  deriving DecidableEq, Repr

/-- The ways the model declines. -/
inductive Refusal where
  /-- Raised only by an arm of `exec` whose instruction has no meaning yet; no arm of this model is
  one. Safe. -/
  | notModelled (mnemonic : String)
  /-- Raised by `startUp` for an image longer than `2^64 - 3` bytes, which
  spec/93_implementation_defined.md row 10 refuses at the load. Safe (D3: "toward unprovable"). -/
  | imageTooLarge
  /-- Raised by `startUp` for a selector map that is not injective, which R5 does not admit as a
  parameter. Safe. -/
  | selectorsNotDistinct
  deriving DecidableEq, Repr

/-- What an execution or a step answers. -/
abbrev Result := Host.Outcome State Fault Refusal

/-- The state after reset (R37, R181), of a block loaded with the empty image, which the spec admits
(R41), and under the spec's default SEL. A program comes in through `load` or `withFetchWord`
(log entries 1 and 2). -/
def State.reset : State where
  mem := { len := 0, cells := [] }
  gpr := { r0 := 0, r1 := 0, r2 := 0, r3 := 0 }
  pc := 0
  zf := false
  status := .running
  trace := none
  sel := defaultSel

end Sys2Proof.Machine
end

