-- ==== Sys2Proof/WellFormed.lean ====
section
/-!
DEFINITION. What well-formed means: a selector map is injective (spec/10_state.md R23), every
selector operand of an instruction is a value of SEL (spec/30_encoding.md R71), and an image fits the
bound on its length (D3).
-/

namespace Sys2Proof

/-- SEL is injective (R23): the four selector bytes are pairwise different. -/
def SelMap.wf (m : SelMap) : Bool :=
  m.r1 != selR0 && m.r2 != selR0 && m.r3 != selR0 && m.r1 != m.r2 && m.r1 != m.r3 && m.r2 != m.r3

/-- The byte is one of the four values of SEL (R71). -/
def isSelector (m : SelMap) (b : Selector) : Bool :=
  b == selByte m .r0 || b == selByte m .r1 || b == selByte m .r2 || b == selByte m .r3

/-- Every selector operand of the instruction is legal under SEL (R71). Literals have no check: every
value is legal (R70). -/
def Instr.wf (m : SelMap) (i : Instr) : Bool := (selectorsOf i).all (isSelector m)

/-- The image's length is one the spec admits (D3). -/
def imageFits (image : List Byte) : Bool := decide (image.length ≤ maxImageLen)

end Sys2Proof
end

