-- ==== Sys2Proof/Machine/Ops.lean ====
section
/-!
DEFINITION. The named operations over memory, registers, the program counter, the run status and the
trace port: the access primitives (spec/20_memory.md R42 to R44), the image load (R180), the ALU
(spec/40_arithmetic.md R100), error entry (spec/60_exceptions.md R156), fetch (spec/30_encoding.md
R72) and the trace (R162).
-/

namespace Sys2Proof.Machine

open Sys2Proof

/-! ### Memory -/

/-- The byte a cell list holds at an address. -/
def cellAt : List Host.Cell → Nat → Byte
  | [], _ => unlistedByte
  | (k, v) :: rest, a => if k = a then v else cellAt rest a

/-- The cell in front of `rest`, left out where the byte is what an unlisted address reads as. -/
def consCell (a : Nat) (v : Byte) (rest : List Host.Cell) : List Host.Cell :=
  if v = unlistedByte then rest else (a, v) :: rest

/-- Sets the byte at an address, keeping the canonical form. -/
def setCell : List Host.Cell → Nat → Byte → List Host.Cell
  | [], a, v => consCell a v []
  | (k, w) :: rest, a, v =>
    if k < a then (k, w) :: setCell rest a v
    else if k = a then consCell a v rest
    else consCell a v ((k, w) :: rest)

/-- `MemRead(a, 1)` (R42, R43). The address is a natural number and never wraps (R10). -/
def memRead (m : Memory) (a : Nat) : Except Err Byte :=
  if a < m.len then .ok (cellAt m.cells a) else .error (.outOfBounds a)

/-- `MemWrite(a, 1, v)` (R44). No instruction uses it. -/
def memWrite (m : Memory) (a : Nat) (v : Byte) : Except Err Memory :=
  if a < m.len then .ok { m with cells := setCell m.cells a v } else .error (.outOfBounds a)

/-- The cells of a list of bytes that lies at the address `base`. -/
def imageCells (base : Nat) : List Byte → List Host.Cell
  | [] => []
  | b :: rest => consCell base b (imageCells (base + 1) rest)

/-- The memory that the load makes of an image: `L` is its length and every byte is copied to its
index (R180). -/
def imageMemory (image : List Byte) : Memory :=
  { len := image.length, cells := imageCells 0 image }

/-- Lengthens the memory to hold an address and sets its byte: only `withFetchWord`, which stands for
a load, uses it. -/
def pokeByte (m : Memory) (a : Nat) (v : Byte) : Memory :=
  { len := max m.len (a + 1), cells := setCell m.cells a v }

/-- Places bytes at an address, lengthening the memory where it is too short. -/
def pokeBytes (m : Memory) (a : Nat) : List Byte → Memory
  | [] => m
  | b :: rest => pokeBytes (pokeByte m a b) (a + 1) rest

/-! ### Registers and the program counter -/

/-- `GPR[r]` (R9). -/
def getReg (s : State) : Reg → Word
  | .r0 => s.gpr.r0
  | .r1 => s.gpr.r1
  | .r2 => s.gpr.r2
  | .r3 => s.gpr.r3

/-- `GPR[r] <- v` (R9). -/
def setReg (r : Reg) (v : Word) (s : State) : State :=
  match r with
  | .r0 => { s with gpr := { s.gpr with r0 := v } }
  | .r1 => { s with gpr := { s.gpr with r1 := v } }
  | .r2 => { s with gpr := { s.gpr with r2 := v } }
  | .r3 => { s with gpr := { s.gpr with r3 := v } }

/-- `pc <- target` (R9). -/
def setPc (target : Word) (s : State) : State := { s with pc := target }

/-- The generic advance `pc <- pc + n` (R74). In a step `pc < L <= 2^64 - 3`, so it never wraps
(R31, log entry 4). -/
def advance (n : Nat) (s : State) : State := { s with pc := s.pc + BitVec.ofNat 64 n }

/-! ### The ALU (R100); its equality is in Flags.lean -/

/-- `add64` of R100: the sum modulo `2^64`. -/
def add64 (a b : Word) : Word := a + b

/-- `sub64` of R100: the difference modulo `2^64`. -/
def sub64 (a b : Word) : Word := a - b

/-! ### Taking an error (R156). No return from one exists (R157). -/

/-- Error entry: the status becomes Halted with the record, no snapshot is handed over, and registers,
flag, pc and memory keep their values (R156, D7, D8; log entries 7 and 8). -/
def raise (e : Err) (s : State) : State := { s with status := .halted e, trace := none }

/-! ### Fetch: actions (1) to (3) of R72 -/

/-- Byte `k` of the instruction at pc: one bounds-checked access at `pc + k`, computed as a natural
number (R28, R45). -/
def fetchByte (s : State) (k : Nat) : Except Err Byte := memRead s.mem (s.pc.toNat + k)

/-- Fetches and decodes the instruction at pc, reading memory's current content (R53, R72). -/
def fetch (s : State) : Except Err Instr := decodeFrom (fetchByte s)

/-! ### The trace port: action (7) of R72 -/

/-- The snapshot of R162 for the instruction `i`, in the state after it. -/
def snapshot (i : Instr) (s : State) : Trace where
  opcode := (encode i).headD 0
  operands := (encode i).tail
  gpr := s.gpr
  pc := s.pc
  zf := s.zf

/-- Hands the snapshot to the host if the step completed; a step that raised an error hands over none
(R156, R162). -/
def emitTrace (i : Instr) (s : State) : State :=
  match s.status with
  | .running => { s with trace := some (snapshot i s) }
  | .halted _ => { s with trace := none }

/-- Action (7) of R72 on what an execution answers. -/
def handOver (i : Instr) : Result → Result
  | .next s => .next (emitTrace i s)
  | .fault f => .fault f
  | .refused r => .refused r

/-! ### Load and start-up (spec/70_reset_and_hazards.md R180 to R182) -/

/-- Load, then reset (R180, R181): the reset state with memory holding exactly the image, under the
selector map `m`. -/
def load (m : SelMap) (image : List Byte) : State :=
  { State.reset with mem := imageMemory image, sel := m }

/-- The start-up sequence of R182 up to the first step. `none` is an image the host could not obtain
(R154). -/
def startUp (m : SelMap) : Option (List Byte) → Result
  | none => .fault .imageLoadFailure
  | some image =>
    if ! m.wf then .refused .selectorsNotDistinct
    else if ! imageFits image then .refused .imageTooLarge
    else .next (load m image)

end Sys2Proof.Machine
end

