-- ==== Sys2Proof/Machine/Operands.lean ====
section
/-!
DEFINITION. The operand forms: resolving selectors (spec/10_state.md R24, action (4) of
spec/30_encoding.md R72) and widening literals (R63, R64).
-/

namespace Sys2Proof.Machine

open Sys2Proof

/-- `resolve(b)` (R24): the register of a selector byte, or InvalidRegister with the byte. -/
def resolve (m : SelMap) (b : Selector) : Except Err Reg :=
  if b = selByte m .r0 then .ok .r0
  else if b = selByte m .r1 then .ok .r1
  else if b = selByte m .r2 then .ok .r2
  else if b = selByte m .r3 then .ok .r3
  else .error (.invalidRegister b)

/-- `zext_64` (R8): a data literal widened to 64 bits, never sign-extended (R63, C1). -/
def zext64 (b : Literal) : Word := b.setWidth 64

/-- A jump literal as an absolute address in 0..255 (R64; for JZ the spec's decision D15, log
entry 9). -/
def jumpTarget (b : Literal) : Word := b.setWidth 64

/-- The form with one selector: resolves it, then applies the effect, or raises the error. -/
def withReg (rs : Selector) (s : State) (effect : Reg → State) : Result :=
  match resolve s.sel rs with
  | .error e => .next (raise e s)
  | .ok r => .next (effect r)

/-- The form with two selectors: resolves byte 1 before byte 2 (R155, D4, log entry 6), then applies
the effect, or raises the first error. -/
def withRegs (rd rs2 : Selector) (s : State) (effect : Reg → Reg → State) : Result :=
  match resolve s.sel rd with
  | .error e => .next (raise e s)
  | .ok dst =>
    match resolve s.sel rs2 with
    | .error e => .next (raise e s)
    | .ok src => .next (effect dst src)

end Sys2Proof.Machine
end

