-- ==== Sys2Proof/Machine/Arithmetic.lean ====
section
/-!
DEFINITION. ADD, INC, DEC and SUB (spec/40_arithmetic.md R102 to R107). None touches the zero flag or
memory (R101). Both operands are read from the state before the instruction, so a form whose two
selectors name one register is well defined (R187).
-/

namespace Sys2Proof.Machine

open Sys2Proof

/-- ADD reg, imm (R102). -/
def execAddRegImm (rs : Selector) (imm8 : Literal) (s : State) : Result :=
  withReg rs s fun r => advance 3 (setReg r (add64 (getReg s r) (zext64 imm8)) s)

/-- ADD reg, reg (R103). -/
def execAddRegReg (rd rs2 : Selector) (s : State) : Result :=
  withRegs rd rs2 s fun dst src => advance 3 (setReg dst (add64 (getReg s dst) (getReg s src)) s)

/-- INC reg (R104). -/
def execIncReg (rs : Selector) (s : State) : Result :=
  withReg rs s fun r => advance 2 (setReg r (add64 (getReg s r) 1) s)

/-- DEC reg (R105). -/
def execDecReg (rs : Selector) (s : State) : Result :=
  withReg rs s fun r => advance 2 (setReg r (sub64 (getReg s r) 1) s)

/-- SUB reg, imm (R106). -/
def execSubRegImm (rs : Selector) (imm8 : Literal) (s : State) : Result :=
  withReg rs s fun r => advance 3 (setReg r (sub64 (getReg s r) (zext64 imm8)) s)

/-- SUB reg, reg (R107). -/
def execSubRegReg (rd rs2 : Selector) (s : State) : Result :=
  withRegs rd rs2 s fun dst src => advance 3 (setReg dst (sub64 (getReg s dst) (getReg s src)) s)

end Sys2Proof.Machine
end

