-- ==== Sys2Proof/Machine/Flags.lean ====
section
/-!
DEFINITION. The zero flag (spec/10_state.md R32): the ALU's comparison, which only CMP uses, and the
one write of the flag.
-/

namespace Sys2Proof.Machine

open Sys2Proof

/-- `eq64` of R100: all 64 bits are compared. -/
def eq64 (a b : Word) : Bool := a == b

/-- `zf <- c` (R9). -/
def setZf (c : Bool) (s : State) : State := { s with zf := c }

end Sys2Proof.Machine
end

