-- ==== Sys2Proof/Machine/Control.lean ====
section
/-!
DEFINITION. JMP, CMP and JZ (spec/42_compare_jump.md R130 to R133).
-/

namespace Sys2Proof.Machine

open Sys2Proof

/-- JMP imm (R130). A target at or beyond `L` is an error of the next fetch, not of JMP. -/
def execJmpImm (imm8 : Literal) (s : State) : Result := .next (setPc (jumpTarget imm8) s)

/-- CMP reg, imm (R131). -/
def execCmpRegImm (rs : Selector) (imm8 : Literal) (s : State) : Result :=
  withReg rs s fun r => advance 3 (setZf (eq64 (getReg s r) (zext64 imm8)) s)

/-- CMP reg, reg (R132). -/
def execCmpRegReg (rd rs2 : Selector) (s : State) : Result :=
  withRegs rd rs2 s fun dst src => advance 3 (setZf (eq64 (getReg s dst) (getReg s src)) s)

/-- JZ imm (R133). The flag is read and kept. -/
def execJzImm (imm8 : Literal) (s : State) : Result :=
  .next (if s.zf then setPc (jumpTarget imm8) s else advance 2 s)

end Sys2Proof.Machine
end

