-- ==== Sys2Proof/Machine/Move.lean ====
section
/-!
DEFINITION. MOV (spec/41_move.md R120, R121).
-/

namespace Sys2Proof.Machine

open Sys2Proof

/-- MOV reg, imm (R120). -/
def execMovRegImm (rs : Selector) (imm8 : Literal) (s : State) : Result :=
  withReg rs s fun r => advance 3 (setReg r (zext64 imm8) s)

/-- MOV reg, reg (R121). -/
def execMovRegReg (rd rs2 : Selector) (s : State) : Result :=
  withRegs rd rs2 s fun dst src => advance 3 (setReg dst (getReg s src) s)

end Sys2Proof.Machine
end

