-- ==== Sys2Proof/Machine/Dispatch.lean ====
section
/-!
DEFINITION. Dispatch: one arm per instruction (spec/30_encoding.md R66), each calling its meaning,
actions (4) to (6) of R72.
-/

namespace Sys2Proof.Machine

open Sys2Proof

-- Executes a decoded instruction: resolves its selectors, applies its effect and commits it, or
-- raises InvalidRegister (R72 actions 4 to 6).
def exec (i : Instr) (s : State) : Host.Outcome State Fault Refusal :=
  match i with
  | .addRegImm rs imm8 => Sys2Proof.Machine.execAddRegImm rs imm8 s
  | .addRegReg rd rs2 => Sys2Proof.Machine.execAddRegReg rd rs2 s
  | .incReg rs => Sys2Proof.Machine.execIncReg rs s
  | .decReg rs => Sys2Proof.Machine.execDecReg rs s
  | .subRegImm rs imm8 => Sys2Proof.Machine.execSubRegImm rs imm8 s
  | .subRegReg rd rs2 => Sys2Proof.Machine.execSubRegReg rd rs2 s
  | .movRegImm rs imm8 => Sys2Proof.Machine.execMovRegImm rs imm8 s
  | .movRegReg rd rs2 => Sys2Proof.Machine.execMovRegReg rd rs2 s
  | .jmpImm imm8 => Sys2Proof.Machine.execJmpImm imm8 s
  | .cmpRegImm rs imm8 => Sys2Proof.Machine.execCmpRegImm rs imm8 s
  | .cmpRegReg rd rs2 => Sys2Proof.Machine.execCmpRegReg rd rs2 s
  | .jzImm imm8 => Sys2Proof.Machine.execJzImm imm8 s

end Sys2Proof.Machine
end

