-- ==== Sys2Proof/Machine/Step.lean ====
section
/-!
DEFINITION. One step of the engine (spec/30_encoding.md R72) and the placing of one instruction where
the next step fetches it.
-/

namespace Sys2Proof.Machine

open Sys2Proof

/-- One step request (R72, R163). A halted block has no step (R157). An error of the fetch or decode
halts the block (R156); otherwise the instruction executes, and a completed step hands over its
snapshot (R162). -/
def step (s : State) : Host.Outcome State Fault Refusal :=
  match s.status with
  | .halted e => .fault (.halted e)
  | .running =>
    match fetch s with
    | .error e => .next (raise e s)
    | .ok i => handOver i (exec i s)

/-- `s` with the instruction of a table word at pc, in a memory long enough to hold it, and the block
Running: the load this hardware's program comes in by, so it sets the memory's length too (log
entry 2). -/
def State.withFetchWord (s : State) (nbits w : Nat) : State :=
  { s with mem := pokeBytes s.mem s.pc.toNat (tableBytes nbits w), status := .running }

end Sys2Proof.Machine
end

