-- ==== Sys2Proof/Safety.lean ====
section
/-!
DEFINITION. The terms claims use: what an instruction leaves unchanged, how a step halts, and the
invariant of the block.
-/

namespace Sys2Proof.Machine

open Sys2Proof

/-! ### Frames -/

/-- Every byte of memory reads as before, and the memory's length is as before. -/
def SameMemory (s t : State) : Prop :=
  t.mem.len = s.mem.len ∧ ∀ a, memRead t.mem a = memRead s.mem a

/-- Memory, run status, trace port and selector map are as before: no instruction's own effect changes
one of them (R20, R44; the step hands over the trace after the effect, R72 action 7). -/
def SameSurroundings (s t : State) : Prop :=
  SameMemory s t ∧ t.status = s.status ∧ t.trace = s.trace ∧ t.sel = s.sel

/-- Nothing but the register `r` and pc may differ. -/
def OnlyRegister (r : Reg) (s t : State) : Prop :=
  (∀ q, q ≠ r → getReg t q = getReg s q) ∧ t.zf = s.zf ∧ SameSurroundings s t

/-- Nothing but the zero flag and pc may differ. -/
def OnlyFlag (s t : State) : Prop := (∀ q, getReg t q = getReg s q) ∧ SameSurroundings s t

/-- Nothing but pc may differ. -/
def OnlyPc (s t : State) : Prop :=
  (∀ q, getReg t q = getReg s q) ∧ t.zf = s.zf ∧ SameSurroundings s t

/-! ### Steps -/

/-- The bytes stand in memory from pc on, in bounds. -/
def HoldsAtPc (s : State) (bytes : List Byte) : Prop :=
  ∀ k (h : k < bytes.length), memRead s.mem (s.pc.toNat + k) = .ok bytes[k]

/-- The step raises the error `e`: it halts the block with that record. -/
def HaltsWith (s : State) (e : Err) : Prop := ∃ t, step s = .next t ∧ t.status = .halted e

/-- From a running state the step fetches `i`, executes it and ends without an error in `t`. -/
def Completes (s : State) (i : Instr) (t : State) : Prop :=
  s.status = .running ∧ fetch s = .ok i ∧ step s = .next t ∧ t.status = .running

/-- A 2-byte instruction with this opcode whose operand byte is missing raises OutOfBounds at it. -/
def TruncationOfTwo (op : Byte) : Prop :=
  ∀ s : State, s.status = .running → memRead s.mem s.pc.toNat = .ok op →
    s.mem.len ≤ s.pc.toNat + 1 → HaltsWith s (.outOfBounds (s.pc.toNat + 1))

/-- A 3-byte instruction with this opcode raises OutOfBounds at the first operand byte missing. -/
def TruncationOfThree (op : Byte) : Prop :=
  ∀ s : State, s.status = .running → memRead s.mem s.pc.toNat = .ok op →
    (s.mem.len ≤ s.pc.toNat + 1 → HaltsWith s (.outOfBounds (s.pc.toNat + 1))) ∧
    (s.pc.toNat + 1 < s.mem.len → s.mem.len ≤ s.pc.toNat + 2 →
      HaltsWith s (.outOfBounds (s.pc.toNat + 2)))

/-- An instruction whose bytes all stand at pc and whose first selector `b` no register has raises
InvalidRegister(b). -/
def RejectsSelector (b : Selector) (i : Instr) : Prop :=
  ∀ s : State, s.status = .running → HoldsAtPc s (encode i) → (∀ r, b ≠ selByte s.sel r) →
    HaltsWith s (.invalidRegister b)

/-- An instruction whose bytes all stand at pc, whose first selector `b` names a register and whose
second, `c`, names none raises InvalidRegister(c). -/
def RejectsSecondSelector (b c : Selector) (i : Instr) : Prop :=
  ∀ s : State, s.status = .running → HoldsAtPc s (encode i) → (∃ r, b = selByte s.sel r) →
    (∀ r, c ≠ selByte s.sel r) → HaltsWith s (.invalidRegister c)

/-- The value is in one of the eight ranges of unsupported opcode bytes that R68 lists. -/
def inUnsupportedRanges (n : Nat) : Bool :=
  decide (0x02 ≤ n ∧ n ≤ 0x0F) || decide (0x11 ≤ n ∧ n ≤ 0x1F) || decide (0x21 ≤ n ∧ n ≤ 0x2F) ||
    decide (0x32 ≤ n ∧ n ≤ 0x3F) || decide (0x42 ≤ n ∧ n ≤ 0x4F) || decide (0x51 ≤ n ∧ n ≤ 0x5F) ||
    decide (0x62 ≤ n ∧ n ≤ 0x6F) || decide (0x71 ≤ n ∧ n ≤ 0xFF)

/-- The instruction is one that may set pc directly (R74). -/
def isJump : Instr → Bool
  | .addRegImm _ _ => false
  | .addRegReg _ _ => false
  | .incReg _ => false
  | .decReg _ => false
  | .subRegImm _ _ => false
  | .subRegReg _ _ => false
  | .movRegImm _ _ => false
  | .movRegReg _ _ => false
  | .jmpImm _ => true
  | .cmpRegImm _ _ => false
  | .cmpRegReg _ _ => false
  | .jzImm _ => true

/-- The instruction is a CMP, the one writer of the zero flag (R32). -/
def isCompare : Instr → Bool
  | .addRegImm _ _ => false
  | .addRegReg _ _ => false
  | .incReg _ => false
  | .decReg _ => false
  | .subRegImm _ _ => false
  | .subRegReg _ _ => false
  | .movRegImm _ _ => false
  | .movRegReg _ _ => false
  | .jmpImm _ => false
  | .cmpRegImm _ _ => true
  | .cmpRegReg _ _ => true
  | .jzImm _ => false

/-! ### The invariant -/

/-- pc is in the range that a load, an advance from inside memory and an 8-bit jump can reach (R31).
That a taken JZ reaches at most 255 rests on D15 (log entry 9). -/
def pcInRange (s : State) : Bool := decide (s.pc.toNat ≤ max (s.mem.len + 2) 255)

/-- A halted block's record names an error that its unchanged state still shows (R151 to R153, R156).
That the state is unchanged is the spec's decision D7 (log entry 7). -/
def errorShown (s : State) : Bool :=
  match s.status with
  | .running => true
  | .halted (.outOfBounds a) =>
    decide (s.mem.len ≤ a) && decide (s.pc.toNat ≤ a) && decide (a ≤ s.pc.toNat + 2)
  | .halted (.invalidRegister b) =>
    !isSelector s.sel b &&
      (decide (memRead s.mem (s.pc.toNat + 1) = .ok b) || decide (memRead s.mem (s.pc.toNat + 2) = .ok b))
  | .halted (.unsupportedInstruction op) =>
    decide (memRead s.mem s.pc.toNat = .ok op) && (schemaOf op).isNone

/-- A snapshot on the trace port belongs to a running block, shows its present registers, pc and flag,
and carries the bytes of an instruction (R162). That a halted block's port is empty is the spec's
decision D8 (log entry 8). -/
def traceCurrent (s : State) : Bool :=
  match s.trace with
  | none => true
  | some t =>
    decide (s.status = .running) && decide (t.gpr = s.gpr) && decide (t.pc = s.pc) && t.zf == s.zf &&
      match decode (t.opcode :: t.operands) with
      | .ok i => decide (encode i = t.opcode :: t.operands)
      | .error _ => false

/-- The invariant of the block: memory in canonical form and within the bound on its length, SEL
injective, pc in its range, the error record and the trace true of the state. -/
abbrev State.Inv (s : State) : Prop :=
  s.mem.wf = true ∧ s.mem.len ≤ maxImageLen ∧ s.sel.wf = true ∧ pcInRange s = true ∧
    errorShown s = true ∧ traceCurrent s = true

end Sys2Proof.Machine
end

