-- ==== Sys2Proof/Certificates/Slice0/Obligations.lean ====
section
/-!
DEFINITION. The statements for the provers, in the order of the spec's files. A statement about a
state holds for every state, so for every image and every selector map SEL (D1), unless it says
otherwise.
-/

open Sys2Proof Sys2Proof.Machine

/-! ### Encoding (spec/30_encoding.md) -/

/-- Decode and encode agree, for all twelve instructions and every operand byte at every value: the
encoding of an instruction decodes to it whatever bytes follow, and bytes that decode begin with the
encoding of what they decode to, so each encoding of the table has one meaning and no other bytes have
one (R61, R66, R67). -/
def Obligations.DecodeAndEncodeAgree : Prop :=
  (∀ (i : Instr) (rest : List Byte), decode (encode i ++ rest) = .ok i) ∧
  (∀ (bytes : List Byte) (i : Instr), decode bytes = .ok i →
    bytes = encode i ++ bytes.drop (instrLength i))

/-- Words written out from the spec's encodings: the images of the source's scenarios and the examples
of R103 and R130. -/
def Obligations.WordsOfTheSpecDecode : Prop :=
  decode [0x40, 0x02, 0x05] = .ok (.movRegImm 0x02 0x05) ∧
  decode [0x10, 0x02] = .ok (.incReg 0x02) ∧
  decode [0x60, 0x02, 0x03] = .ok (.cmpRegImm 0x02 0x03) ∧
  decode [0x70, 0x00] = .ok (.jzImm 0x00) ∧
  decode [0x01, 0x02, 0x03] = .ok (.addRegReg 0x02 0x03) ∧
  decode [0x50, 0x0C] = .ok (.jmpImm 0x0C) ∧
  decode [0x99] = .error (.unsupportedInstruction 0x99) ∧
  decode [0x10] = .error (.outOfBounds 1)

/-- R68: the unsupported opcode bytes are exactly those of the listed ranges, 244 of them; whatever
follows one, nothing at all included, decoding it raises UnsupportedInstruction. -/
def Obligations.UnsupportedOpcodesAreTheListedOnes : Prop :=
  (∀ op : Byte, inUnsupportedRanges op.toNat = true →
    ∀ rest, decode (op :: rest) = .error (.unsupportedInstruction op)) ∧
  (∀ op : Byte, inUnsupportedRanges op.toNat = false →
    ∀ b1 b2, ∃ i, decode [op, b1, b2] = .ok i) ∧
  ((List.range 256).filter inUnsupportedRanges).length = 244

/-- R69: the opcode byte alone fixes the length, 3 for the formats RI and RR and 2 for R and I. -/
def Obligations.OpcodeByteFixesLength : Prop :=
  ∀ (op : Byte) (schema : Schema), schemaOf op = some schema →
    ∀ (operands : List Byte) (i : Instr), decode (op :: operands) = .ok i →
      (encode i).length =
        match schema with
        | .ri _ => 3
        | .rr _ => 3
        | .r _ => 2
        | .i _ => 2

/-! ### Registers and the selector map (spec/10_state.md) -/

/-- R24: `resolve` is total on all bytes; it answers the first register whose byte matches, and
InvalidRegister with the byte where none does. Under an injective SEL each register's byte resolves to
that register. -/
def Obligations.SelectorResolution : Prop :=
  ∀ (m : SelMap) (b : Selector),
    (b = selByte m .r0 → resolve m b = .ok .r0) ∧
    (b ≠ selByte m .r0 → b = selByte m .r1 → resolve m b = .ok .r1) ∧
    (b ≠ selByte m .r0 → b ≠ selByte m .r1 → b = selByte m .r2 → resolve m b = .ok .r2) ∧
    (b ≠ selByte m .r0 → b ≠ selByte m .r1 → b ≠ selByte m .r2 → b = selByte m .r3 →
      resolve m b = .ok .r3) ∧
    ((∀ r, b ≠ selByte m r) → resolve m b = .error (.invalidRegister b)) ∧
    (m.wf = true → ∀ r, resolve m (selByte m r) = .ok r)

/-- R0's byte is 0x02 for every SEL, well-formed means injective, and no step changes SEL (R5, R23).
The values of the other three bytes are the spec's open parameter (D1, log entry 1): nothing is said
of them. -/
def Obligations.SelectorMapIsFixedAndInjective : Prop :=
  (∀ m : SelMap, selByte m .r0 = 0x02) ∧
  (∀ m : SelMap, m.wf = true ↔ ∀ q r, selByte m q = selByte m r → q = r) ∧
  (∀ s t : State, step s = .next t → t.sel = s.sel)

/-! ### Memory (spec/20_memory.md) and the load (spec/70_reset_and_hazards.md) -/

/-- R42, R43: a read in bounds answers the byte at the address, any other raises OutOfBounds with the
address. -/
def Obligations.ReadIsBoundsChecked : Prop :=
  ∀ (m : Memory) (a : Nat),
    (a < m.len → memRead m a = .ok (cellAt m.cells a)) ∧
    (m.len ≤ a → memRead m a = .error (.outOfBounds a))

/-- R44: a write in bounds stores the byte at the address and changes nothing else, any other raises
OutOfBounds with the address; and no step writes memory. (The canonical form is a premise: it is an
invariant, `StepKeepsInvariant`.) -/
def Obligations.WriteStoresOneByte : Prop :=
  (∀ (m : Memory) (a : Nat) (v : Byte), m.wf = true →
    (m.len ≤ a → memWrite m a v = .error (.outOfBounds a)) ∧
    (a < m.len → ∃ n, memWrite m a v = .ok n ∧ n.len = m.len ∧ memRead n a = .ok v ∧
      ∀ b, b ≠ a → memRead n b = memRead m b)) ∧
  (∀ s t : State, step s = .next t → SameMemory s t)

/-- R180: the load makes L the image's length and copies every byte to its index, with nothing beyond;
no step changes L afterwards. An image longer than `2^64 - 3` is refused: that bound is the spec's own
decision D3 (log entry 5). -/
def Obligations.LoadCopiesTheImage : Prop :=
  (∀ (m : SelMap) (image : List Byte),
    (load m image).mem.len = image.length ∧
    (∀ a (h : a < image.length), memRead (load m image).mem a = .ok image[a]) ∧
    (∀ a, image.length ≤ a → memRead (load m image).mem a = .error (.outOfBounds a))) ∧
  (∀ s t : State, step s = .next t → t.mem.len = s.mem.len) ∧
  (∀ (m : SelMap) (image : List Byte), m.wf = true → 2 ^ 64 - 3 < image.length →
    startUp m (some image) = .refused .imageTooLarge)

/-- R26, R37: every register, pc, the flag, the status, memory and L after reset. -/
def Obligations.ResetLeavesTheTabledValues : Prop :=
  ∀ (m : SelMap) (image : List Byte),
    (∀ r, getReg (load m image) r = 0) ∧ (load m image).pc = 0 ∧ (load m image).zf = false ∧
    (load m image).status = .running ∧ (load m image).mem.len = image.length ∧
    ∀ a (h : a < image.length), memRead (load m image).mem a = .ok image[a]

/-- The start-up sequence of R182: no image, no step (R154); an image within the bound of D3 is loaded
and reset. The model's `State.reset` is that of the empty image under the spec's default SEL (the
model's choice, log entries 1 and 2), and its first step is the OutOfBounds(0) of D3. -/
def Obligations.StartUpSequence : Prop :=
  (∀ m : SelMap, startUp m none = .fault .imageLoadFailure) ∧
  (∀ (m : SelMap) (image : List Byte), m.wf = true → image.length ≤ 2 ^ 64 - 3 →
    startUp m (some image) = .next (load m image)) ∧
  startUp defaultSel (some []) = .next State.reset ∧
  (∀ m : SelMap, HaltsWith (load m []) (.outOfBounds 0))

/-! ### Arithmetic (spec/40_arithmetic.md) -/

/-- R100: the three operations of the ALU on 64-bit patterns. -/
def Obligations.AluComputesModulo : Prop :=
  ∀ a b : Word,
    (add64 a b).toNat = (a.toNat + b.toNat) % 2 ^ 64 ∧
    ((sub64 a b).toNat : Int) = ((a.toNat : Int) - (b.toNat : Int)) % 2 ^ 64 ∧
    (eq64 a b = true ↔ a.toNat = b.toNat)

/-- R102, whole: encoding, effect and frame, the exceptions in their order, the corner cases. -/
def Obligations.AddRegImmAddsLiteral : Prop :=
  ∀ (rs : Selector) (imm8 : Literal),
    encode (.addRegImm rs imm8) = [0x00, rs, imm8] ∧
    (∀ (s : State) (r : Reg), resolve s.sel rs = .ok r →
      ∃ t, exec (.addRegImm rs imm8) s = .next t ∧
        (getReg t r).toNat = ((getReg s r).toNat + imm8.toNat) % 2 ^ 64 ∧
        (imm8 = 0 → getReg t r = getReg s r) ∧
        (getReg s r = maxWord → imm8 = 1 → getReg t r = minWord) ∧
        (getReg s r = maxWord → imm8 = 0xFF → getReg t r = 0x80000000000000FE) ∧
        t.pc = s.pc + 3 ∧ OnlyRegister r s t) ∧
    TruncationOfThree 0x00 ∧ RejectsSelector rs (.addRegImm rs imm8)

/-- ADD reg, reg (R103). Which of two invalid selectors is reported is the spec's own decision D4
(log entry 6). -/
def Obligations.AddRegRegAddsSecond : Prop :=
  ∀ rd rs2 : Selector,
    encode (.addRegReg rd rs2) = [0x01, rd, rs2] ∧
    (∀ (s : State) (d q : Reg), resolve s.sel rd = .ok d → resolve s.sel rs2 = .ok q →
      ∃ t, exec (.addRegReg rd rs2) s = .next t ∧
        (getReg t d).toNat = ((getReg s d).toNat + (getReg s q).toNat) % 2 ^ 64 ∧
        t.pc = s.pc + 3 ∧ OnlyRegister d s t) ∧
    TruncationOfThree 0x01 ∧ RejectsSelector rd (.addRegReg rd rs2) ∧
    RejectsSecondSelector rd rs2 (.addRegReg rd rs2)

/-- R104, whole. -/
def Obligations.IncRegAddsOne : Prop :=
  ∀ rs : Selector,
    encode (.incReg rs) = [0x10, rs] ∧
    (∀ (s : State) (r : Reg), resolve s.sel rs = .ok r →
      ∃ t, exec (.incReg rs) s = .next t ∧
        (getReg t r).toNat = ((getReg s r).toNat + 1) % 2 ^ 64 ∧
        (getReg s r = maxWord → getReg t r = minWord) ∧
        (getReg s r = neg1Word → getReg t r = 0) ∧
        t.pc = s.pc + 2 ∧ OnlyRegister r s t) ∧
    TruncationOfTwo 0x10 ∧ RejectsSelector rs (.incReg rs)

/-- R105, whole. -/
def Obligations.DecRegSubtractsOne : Prop :=
  ∀ rs : Selector,
    encode (.decReg rs) = [0x20, rs] ∧
    (∀ (s : State) (r : Reg), resolve s.sel rs = .ok r →
      ∃ t, exec (.decReg rs) s = .next t ∧
        ((getReg t r).toNat : Int) = ((getReg s r).toNat - 1 : Int) % 2 ^ 64 ∧
        (getReg s r = minWord → getReg t r = maxWord) ∧
        (getReg s r = 0 → getReg t r = neg1Word) ∧
        t.pc = s.pc + 2 ∧ OnlyRegister r s t) ∧
    TruncationOfTwo 0x20 ∧ RejectsSelector rs (.decReg rs)

/-- R106, whole. -/
def Obligations.SubRegImmSubtractsLiteral : Prop :=
  ∀ (rs : Selector) (imm8 : Literal),
    encode (.subRegImm rs imm8) = [0x30, rs, imm8] ∧
    (∀ (s : State) (r : Reg), resolve s.sel rs = .ok r →
      ∃ t, exec (.subRegImm rs imm8) s = .next t ∧
        ((getReg t r).toNat : Int) = ((getReg s r).toNat - imm8.toNat : Int) % 2 ^ 64 ∧
        (imm8 = 0 → getReg t r = getReg s r) ∧
        (getReg s r = 0 → imm8 = 1 → getReg t r = neg1Word) ∧
        (getReg s r = minWord → imm8 = 0xFF → getReg t r = 0x7FFFFFFFFFFFFF01) ∧
        t.pc = s.pc + 3 ∧ OnlyRegister r s t) ∧
    TruncationOfThree 0x30 ∧ RejectsSelector rs (.subRegImm rs imm8)

/-- SUB reg, reg (R107). Which of two invalid selectors is reported is the spec's own decision D4
(log entry 6). -/
def Obligations.SubRegRegSubtractsSecond : Prop :=
  ∀ rd rs2 : Selector,
    encode (.subRegReg rd rs2) = [0x31, rd, rs2] ∧
    (∀ (s : State) (d q : Reg), resolve s.sel rd = .ok d → resolve s.sel rs2 = .ok q →
      ∃ t, exec (.subRegReg rd rs2) s = .next t ∧
        ((getReg t d).toNat : Int) = ((getReg s d).toNat - (getReg s q).toNat : Int) % 2 ^ 64 ∧
        t.pc = s.pc + 3 ∧ OnlyRegister d s t) ∧
    TruncationOfThree 0x31 ∧ RejectsSelector rd (.subRegReg rd rs2) ∧
    RejectsSecondSelector rd rs2 (.subRegReg rd rs2)

/-- R108: the ALU's sums and differences are those of the signed readings, wrapped; adding a literal
cannot decrease the signed reading, nor subtracting one increase it, except by wrapping. -/
def Obligations.SignedReadingsWrap : Prop :=
  (∀ a b : Word, s64 (add64 a b) = Int.bmod (s64 a + s64 b) (2 ^ 64) ∧
    s64 (sub64 a b) = Int.bmod (s64 a - s64 b) (2 ^ 64)) ∧
  (∀ (a : Word) (imm8 : Literal),
    (s64 a + imm8.toNat ≤ s64 maxWord → s64 (add64 a (zext64 imm8)) = s64 a + imm8.toNat) ∧
    (s64 minWord ≤ s64 a - imm8.toNat → s64 (sub64 a (zext64 imm8)) = s64 a - imm8.toNat)) ∧
  add64 maxWord 1 = minWord ∧ sub64 minWord 1 = maxWord

/-! ### Move (spec/41_move.md) -/

/-- R120, whole. -/
def Obligations.MovRegImmLoadsLiteral : Prop :=
  ∀ (rs : Selector) (imm8 : Literal),
    encode (.movRegImm rs imm8) = [0x40, rs, imm8] ∧
    (∀ (s : State) (r : Reg), resolve s.sel rs = .ok r →
      ∃ t, exec (.movRegImm rs imm8) s = .next t ∧
        (getReg t r).toNat = imm8.toNat ∧ t.pc = s.pc + 3 ∧ OnlyRegister r s t) ∧
    TruncationOfThree 0x40 ∧ RejectsSelector rs (.movRegImm rs imm8)

/-- MOV reg, reg (R121). Which of two invalid selectors is reported is the spec's own decision D4
(log entry 6). -/
def Obligations.MovRegRegCopiesSecond : Prop :=
  ∀ rd rs2 : Selector,
    encode (.movRegReg rd rs2) = [0x41, rd, rs2] ∧
    (∀ (s : State) (d q : Reg), resolve s.sel rd = .ok d → resolve s.sel rs2 = .ok q →
      ∃ t, exec (.movRegReg rd rs2) s = .next t ∧
        getReg t d = getReg s q ∧ t.pc = s.pc + 3 ∧ OnlyRegister d s t) ∧
    TruncationOfThree 0x41 ∧ RejectsSelector rd (.movRegReg rd rs2) ∧
    RejectsSecondSelector rd rs2 (.movRegReg rd rs2)

/-! ### Compare and jump (spec/42_compare_jump.md) -/

/-- R130, whole: JMP always completes; a target at or beyond L is the error of the next fetch. -/
def Obligations.JmpImmSetsPc : Prop :=
  ∀ imm8 : Literal,
    encode (.jmpImm imm8) = [0x50, imm8] ∧
    (∀ s : State, ∃ t, exec (.jmpImm imm8) s = .next t ∧ t.pc.toNat = imm8.toNat ∧ OnlyPc s t ∧
      (s.status = .running → s.mem.len ≤ imm8.toNat → HaltsWith t (.outOfBounds imm8.toNat))) ∧
    TruncationOfTwo 0x50

/-- R131, whole: the flag is written in every case, to the comparison of all 64 bits. -/
def Obligations.CmpRegImmSetsFlag : Prop :=
  ∀ (rs : Selector) (imm8 : Literal),
    encode (.cmpRegImm rs imm8) = [0x60, rs, imm8] ∧
    (∀ (s : State) (r : Reg), resolve s.sel rs = .ok r →
      ∃ t, exec (.cmpRegImm rs imm8) s = .next t ∧
        t.zf = decide ((getReg s r).toNat = imm8.toNat) ∧ t.pc = s.pc + 3 ∧ OnlyFlag s t) ∧
    TruncationOfThree 0x60 ∧ RejectsSelector rs (.cmpRegImm rs imm8)

/-- CMP reg, reg (R132). Which of two invalid selectors is reported is the spec's own decision D4
(log entry 6). -/
def Obligations.CmpRegRegSetsFlag : Prop :=
  ∀ rd rs2 : Selector,
    encode (.cmpRegReg rd rs2) = [0x61, rd, rs2] ∧
    (∀ (s : State) (d q : Reg), resolve s.sel rd = .ok d → resolve s.sel rs2 = .ok q →
      ∃ t, exec (.cmpRegReg rd rs2) s = .next t ∧
        t.zf = decide ((getReg s d).toNat = (getReg s q).toNat) ∧ t.pc = s.pc + 3 ∧
        OnlyFlag s t) ∧
    TruncationOfThree 0x61 ∧ RejectsSelector rd (.cmpRegReg rd rs2) ∧
    RejectsSecondSelector rd rs2 (.cmpRegReg rd rs2)

/-- JZ (R133): taken iff the flag is true, the flag kept, the operand byte read in both cases. That the
target is zero-extended is the spec's own decision D15 (log entry 9). -/
def Obligations.JzImmJumpsIfFlag : Prop :=
  ∀ imm8 : Literal,
    encode (.jzImm imm8) = [0x70, imm8] ∧
    (∀ s : State, ∃ t, exec (.jzImm imm8) s = .next t ∧ OnlyPc s t ∧
      (s.zf = true → t.pc.toNat = imm8.toNat ∧
        (s.status = .running → s.mem.len ≤ imm8.toNat → HaltsWith t (.outOfBounds imm8.toNat))) ∧
      (s.zf = false → t.pc = s.pc + 2)) ∧
    TruncationOfTwo 0x70

/-- The source's CMP/JZ coupling property (spec/95_test_vectors.md): a JZ that follows a CMP is taken
iff the operands were equal, and leaves the flag as the CMP set it. That the target of a taken JZ is
zero-extended, at literals of 0x80 and more too, is the spec's own decision D15 (log entry 9). -/
def Obligations.JzFollowsCmp : Prop :=
  (∀ (s t : State) (rs : Selector) (imm8 target : Literal) (r : Reg),
    resolve s.sel rs = .ok r → exec (.cmpRegImm rs imm8) s = .next t →
      ∃ u, exec (.jzImm target) t = .next u ∧ u.zf = t.zf ∧
        ((getReg s r).toNat = imm8.toNat → u.pc.toNat = target.toNat) ∧
        ((getReg s r).toNat ≠ imm8.toNat → u.pc = s.pc + 5)) ∧
  (∀ (s t : State) (rd rs2 : Selector) (target : Literal) (d q : Reg),
    resolve s.sel rd = .ok d → resolve s.sel rs2 = .ok q → exec (.cmpRegReg rd rs2) s = .next t →
      ∃ u, exec (.jzImm target) t = .next u ∧ u.zf = t.zf ∧
        (getReg s d = getReg s q → u.pc.toNat = target.toNat) ∧
        (getReg s d ≠ getReg s q → u.pc = s.pc + 5))

/-- R187 (the spec's decision D4): with both selectors on one register, ADD doubles it, SUB clears it,
MOV keeps it and CMP sets the flag. -/
def Obligations.SameRegisterForms : Prop :=
  ∀ (s : State) (b : Selector) (r : Reg), resolve s.sel b = .ok r →
    (∃ t, exec (.addRegReg b b) s = .next t ∧
      (getReg t r).toNat = 2 * (getReg s r).toNat % 2 ^ 64 ∧ t.zf = s.zf) ∧
    (∃ t, exec (.subRegReg b b) s = .next t ∧ getReg t r = 0 ∧ t.zf = s.zf) ∧
    (∃ t, exec (.movRegReg b b) s = .next t ∧ (∀ q, getReg t q = getReg s q) ∧ t.zf = s.zf) ∧
    (∃ t, exec (.cmpRegReg b b) s = .next t ∧ (∀ q, getReg t q = getReg s q) ∧ t.zf = true)

/-! ### The step (spec/30_encoding.md section 4) -/

/-- Where the bytes at pc decode to an instruction, the step of a running block is that instruction's
execution, followed by handing over the snapshot (`emitTrace`; R72). -/
def Obligations.StepRunsDecodedInstruction : Prop :=
  ∀ (s : State) (bytes : List Byte) (i : Instr), s.status = .running → HoldsAtPc s bytes →
    decode bytes = .ok i →
      step s =
        match exec i s with
        | .next t => .next (emitTrace i t)
        | .fault f => .fault f
        | .refused r => .refused r

/-- pc after a completed step (R74). That the literal of a taken JZ is zero-extended is the spec's own
decision D15 (log entry 9); of JMP's literal the source says so. -/
def Obligations.PcAfterStep : Prop :=
  ∀ (s : State) (i : Instr) (t : State), Completes s i t →
    (isJump i = false → t.pc = s.pc + BitVec.ofNat 64 (encode i).length) ∧
    (∀ imm8, i = .jmpImm imm8 → t.pc.toNat = imm8.toNat) ∧
    (∀ imm8, i = .jzImm imm8 → s.zf = true → t.pc.toNat = imm8.toNat) ∧
    (∀ imm8, i = .jzImm imm8 → s.zf = false → t.pc = s.pc + BitVec.ofNat 64 (encode i).length)

/-- R31 under the bound of D3 (log entries 4 and 5): the advance never wraps, and pc after a step is at
most L + 2 after an advance and 255 after a jump. The 255 after a taken JZ rests on the spec's own
decision D15 (log entry 9). -/
def Obligations.PcNeverWraps : Prop :=
  ∀ (s : State) (i : Instr) (t : State), s.mem.len ≤ 2 ^ 64 - 3 → Completes s i t →
    (t.pc.toNat = s.pc.toNat + (encode i).length ∧ t.pc.toNat ≤ s.mem.len + 2) ∨
      (isJump i = true ∧ t.pc.toNat ≤ 255)

/-- R32: only CMP writes the flag, to the comparison of its operands; every other step keeps it. That
an erring step keeps it, a truncated CMP's included, is the spec's own decision D7 (R73, R156, log
entry 7). -/
def Obligations.OnlyCmpWritesFlag : Prop :=
  (∀ s t : State, step s = .next t → (∀ i, fetch s = .ok i → isCompare i = false) → t.zf = s.zf) ∧
  (∀ (s t : State) (rs : Selector) (imm8 : Literal), Completes s (.cmpRegImm rs imm8) t →
    ∃ r, rs = selByte s.sel r ∧ t.zf = decide ((getReg s r).toNat = imm8.toNat)) ∧
  (∀ (s t : State) (rd rs2 : Selector), Completes s (.cmpRegReg rd rs2) t →
    ∃ d q, rd = selByte s.sel d ∧ rs2 = selByte s.sel q ∧
      t.zf = decide (getReg s d = getReg s q))

/-- R32: only JZ reads the flag. Two running blocks that differ in the flag alone end the step of any
other instruction with the same registers, pc, memory and status. -/
def Obligations.OnlyJzReadsFlag : Prop :=
  ∀ (s t : State) (c : Bool), step s = .next t → (∀ imm8, fetch s ≠ .ok (.jzImm imm8)) →
    ∃ u, step (setZf c s) = .next u ∧ u.gpr = t.gpr ∧ u.pc = t.pc ∧ u.mem = t.mem ∧
      u.status = t.status ∧ u.sel = t.sel

/-- R45: the only accesses are the fetches at pc, pc + 1 and pc + 2. Where another memory reads the
same there, the step does the same. -/
def Obligations.StepReadsOnlyItsInstruction : Prop :=
  ∀ (s t : State) (other : Memory),
    (∀ k, k ≤ 2 → memRead other (s.pc.toNat + k) = memRead s.mem (s.pc.toNat + k)) →
    step s = .next t → step { s with mem := other } = .next { t with mem := other }

/-! ### Errors, halting and the trace (spec/60_exceptions.md) -/

/-- R151: OutOfBounds is raised for an address at or beyond L; in a step, in exactly three places, the
third by the eight 3-byte instructions. -/
def Obligations.OutOfBoundsInThreePlaces : Prop :=
  (∀ (m : Memory) (a : Nat), m.len ≤ a →
    memRead m a = .error (.outOfBounds a) ∧ ∀ v, memWrite m a v = .error (.outOfBounds a)) ∧
  (∀ (s : State) (a : Nat), s.status = .running →
    (HaltsWith s (.outOfBounds a) ↔
      (a = s.pc.toNat ∧ s.mem.len ≤ s.pc.toNat) ∨
      (a = s.pc.toNat + 1 ∧ s.mem.len ≤ s.pc.toNat + 1 ∧
        ∃ op schema, memRead s.mem s.pc.toNat = .ok op ∧ schemaOf op = some schema) ∨
      (a = s.pc.toNat + 2 ∧ s.pc.toNat + 1 < s.mem.len ∧ s.mem.len ≤ s.pc.toNat + 2 ∧
        ∃ op schema, memRead s.mem s.pc.toNat = .ok op ∧ schemaOf op = some schema ∧
          schemaLength schema = 3))) ∧
  (opcodeTable.filter fun row => schemaLength row.2 == 3).length = 8

/-- R152: InvalidRegister is raised exactly where a selector operand of the fetched instruction is no
value of SEL, with such a byte; JMP and JZ, and no other instruction, have no selector. -/
def Obligations.InvalidRegisterCause : Prop :=
  (∀ (s : State) (b : Selector), HaltsWith s (.invalidRegister b) →
    ∃ i, fetch s = .ok i ∧ b ∈ selectorsOf i ∧ ∀ r, b ≠ selByte s.sel r) ∧
  (∀ (s : State) (i : Instr), s.status = .running → fetch s = .ok i →
    (∃ b ∈ selectorsOf i, ∀ r, b ≠ selByte s.sel r) →
      ∃ b ∈ selectorsOf i, (∀ r, b ≠ selByte s.sel r) ∧ HaltsWith s (.invalidRegister b)) ∧
  (∀ i : Instr, selectorsOf i = [] ↔ isJump i = true)

/-- R153: UnsupportedInstruction is raised exactly where the opcode byte at pc is one of the 244 values,
whether or not an operand byte could be read. -/
def Obligations.UnsupportedInstructionCause : Prop :=
  ∀ (s : State) (op : Byte), s.status = .running →
    (HaltsWith s (.unsupportedInstruction op) ↔
      memRead s.mem s.pc.toNat = .ok op ∧ inUnsupportedRanges op.toNat = true)

/-- R155, all six places in order. That byte 1's selector comes before byte 2's is the spec's own
decision D4 (log entry 6). -/
def Obligations.ErrorPriority : Prop :=
  ∀ s : State, s.status = .running →
    (s.mem.len ≤ s.pc.toNat → HaltsWith s (.outOfBounds s.pc.toNat)) ∧
    (∀ op, memRead s.mem s.pc.toNat = .ok op →
      (schemaOf op = none → HaltsWith s (.unsupportedInstruction op)) ∧
      (∀ schema, schemaOf op = some schema →
        (s.mem.len ≤ s.pc.toNat + 1 → HaltsWith s (.outOfBounds (s.pc.toNat + 1))) ∧
        (schemaLength schema = 3 → s.pc.toNat + 1 < s.mem.len → s.mem.len ≤ s.pc.toNat + 2 →
          HaltsWith s (.outOfBounds (s.pc.toNat + 2))))) ∧
    (∀ i, HoldsAtPc s (encode i) →
      (∀ b rest, selectorsOf i = b :: rest → (∀ r, b ≠ selByte s.sel r) →
        HaltsWith s (.invalidRegister b)) ∧
      (∀ b c, selectorsOf i = [b, c] → (∃ r, b = selByte s.sel r) → (∀ r, c ≠ selByte s.sel r) →
        HaltsWith s (.invalidRegister c)))

/-- Error entry (R156): the status alone records the error; registers, flag, pc and memory keep their
values and no snapshot is handed over. That nothing was written is the spec's own decision D7, that no
snapshot is handed over its decision D8 (log entries 7 and 8). -/
def Obligations.ErrorEntryIsPrecise : Prop :=
  ∀ (s t : State) (e : Err), step s = .next t → t.status = .halted e →
    s.status = .running ∧ (∀ r, getReg t r = getReg s r) ∧ t.zf = s.zf ∧ t.pc = s.pc ∧
      SameMemory s t ∧ t.sel = s.sel ∧ t.trace = none

/-- R157 (the spec's decision D7, log entry 7): a halted block has no step, which this model answers
with a fault; a running one always has, and no step is refused. -/
def Obligations.RunningStepsHaltedStops : Prop :=
  (∀ s : State, (∃ t, step s = .next t) ↔ s.status = .running) ∧
  (∀ (s : State) (e : Err), s.status = .halted e → step s = .fault (.halted e)) ∧
  (∀ (s : State) (x : Refusal), step s ≠ .refused x)

/-- R162 (with the spec's decision D8, log entry 8): the snapshot a completed step hands over holds the
instruction's bytes as they stand in memory at pc and the registers, pc and flag after it. -/
def Obligations.TraceAfterCompletedStep : Prop :=
  ∀ (s : State) (i : Instr) (t : State), Completes s i t →
    ∃ x, t.trace = some x ∧ encode i = x.opcode :: x.operands ∧
      HoldsAtPc s (x.opcode :: x.operands) ∧ x.gpr = t.gpr ∧ x.pc = t.pc ∧ x.zf = t.zf

/-- R162: the snapshot is output only, no step reads it (that State holds it is the model's choice,
log entry 8). -/
def Obligations.TraceIsOutputOnly : Prop :=
  ∀ (s : State) (x : Option Trace), step { s with trace := x } = step s

/-! ### Whole-machine statements -/

/-- The headline invariant: every step from a state that meets `State.Inv` ends in one that does:
memory stays canonical and within its bound, SEL stays injective, pc stays in its range, a halted
block's record stays true of its state, and the trace port shows the present state. The canonical form
is the model's (log entry 3). The rest leans on decisions the spec marks as its own: the bound on L on
D3 (log entry 5), `errorShown` on D7 (log entry 7), `traceCurrent` on D8 (log entry 8), and the 255 of
`pcInRange` after a taken JZ on D15 (log entry 9). -/
def Obligations.StepKeepsInvariant : Prop :=
  ∀ s t : State, s.Inv → step s = .next t → t.Inv

/-- Every loaded block meets the invariant, and so does `State.reset`. -/
def Obligations.LoadedBlockMeetsInvariant : Prop :=
  (∀ (m : SelMap) (image : List Byte), m.wf = true → image.length ≤ maxImageLen →
    (load m image).Inv) ∧ State.reset.Inv

/-- The model's own load of one table word (log entry 2): the next fetch reads exactly that word. -/
def Obligations.FetchWordIsFetched : Prop :=
  ∀ (s : State) (nbits w : Nat), s.mem.wf = true →
    fetch (s.withFetchWord nbits w) = decode (tableBytes nbits w) ∧
      (s.withFetchWord nbits w).status = .running
end

