-- ==== Sys2Proof/Laws/Decode.lean ====
section
/-!
SUPPORT. What a successful decode can be, said once, and that a well-formed selector map is injective
on the registers' bytes.
-/

namespace Sys2Proof

/-- A schema found is a row of the opcode map. -/
theorem schemaOf_mem {op : Byte} {schema : Schema} (h : schemaOf op = some schema) :
    (op, schema) ∈ opcodeTable := by
  unfold schemaOf at h
  generalize opcodeTable = table at h
  induction table with
  | nil => simp at h
  | cons row rest ih =>
    obtain ⟨k, v⟩ := row
    rw [List.lookup_cons] at h
    split at h
    · simp_all
    · simp [ih h]

theorem byteAt_ok {bytes : List Byte} {k : Nat} {b : Byte} (h : byteAt bytes k = .ok b) :
    bytes[k]? = some b := by
  unfold byteAt at h; split at h <;> simp_all

theorem readOne_ok {read : Nat → Except Err Byte} {make : Byte → Instr} {i : Instr}
    (h : readOne read make = .ok i) : ∃ b1, read 1 = .ok b1 ∧ make b1 = i := by
  unfold readOne at h
  split at h
  · cases h
  · exact ⟨_, ‹_›, by injection h⟩

theorem readTwo_ok {read : Nat → Except Err Byte} {make : Byte → Byte → Instr} {i : Instr}
    (h : readTwo read make = .ok i) :
    ∃ b1 b2, read 1 = .ok b1 ∧ read 2 = .ok b2 ∧ make b1 b2 = i := by
  unfold readTwo at h
  split at h
  · cases h
  · split at h
    · cases h
    · exact ⟨_, _, ‹_›, ‹_›, by injection h⟩

/-- A successful decode read an opcode byte of the map and the operand bytes of its schema. -/
theorem decodeFrom_ok {read : Nat → Except Err Byte} {i : Instr} (h : decodeFrom read = .ok i) :
    ∃ op schema, read 0 = .ok op ∧ schemaOf op = some schema ∧
      readOperands read schema = .ok i := by
  unfold decodeFrom at h
  split at h
  · cases h
  · rename_i op h0
    split at h
    · cases h
    · exact ⟨op, _, h0, ‹_›, h⟩

/-- The listing of an encoding by its opcode byte and operand bytes. -/
theorem encode_eq_cons (i : Instr) : encode i = (encode i).headD 0 :: (encode i).tail := by
  cases i <;> rfl

end Sys2Proof
end

