-- ==== Sys2Proof/Laws/Memory.lean ====
section
/-!
SUPPORT. The laws of memory: read after write, and that every memory operation keeps the canonical
form (`Memory.wf`).
-/

namespace Sys2Proof.Machine

open Sys2Proof

/-! ### Cell lists -/

/-- The addresses of a cell list strictly rise. -/
abbrev CellsRise (l : List Host.Cell) : Prop := l.Pairwise fun x y => x.1 < y.1

theorem cellAt_of_above {l : List Host.Cell} {a : Nat} (h : ∀ c ∈ l, a < c.1) :
    cellAt l a = unlistedByte := by
  induction l with
  | nil => rfl
  | cons c rest ih =>
    have hc := h c (by simp)
    rw [cellAt, if_neg (by omega)]
    exact ih fun d hd => h d (by simp [hd])

theorem cellAt_consCell {l : List Host.Cell} {a : Nat} (v : Byte) (b : Nat)
    (h : ∀ c ∈ l, a < c.1) : cellAt (consCell a v l) b = if b = a then v else cellAt l b := by
  unfold consCell
  by_cases hb : b = a
  · subst hb
    split
    · rw [cellAt_of_above h]; simp_all
    · simp [cellAt]
  · split <;> simp [cellAt, Ne.symm hb]

theorem mem_consCell {l : List Host.Cell} {a : Nat} {v : Byte} {c : Host.Cell}
    (h : c ∈ consCell a v l) : c ∈ l ∨ (c = (a, v) ∧ v ≠ unlistedByte) := by
  unfold consCell at h
  split at h
  · exact .inl h
  · rcases List.mem_cons.mp h with rfl | h
    · exact .inr ⟨rfl, ‹_›⟩
    · exact .inl h

theorem mem_setCell {l : List Host.Cell} {a : Nat} {v : Byte} {c : Host.Cell}
    (h : c ∈ setCell l a v) : c ∈ l ∨ (c = (a, v) ∧ v ≠ unlistedByte) := by
  induction l with
  | nil => simpa using mem_consCell h
  | cons d rest ih =>
    obtain ⟨k, w⟩ := d
    rw [setCell] at h
    split at h
    · rcases List.mem_cons.mp h with rfl | h
      · simp
      · rcases ih h with h | h
        · simp [h]
        · exact .inr h
    · split at h
      · rcases mem_consCell h with h | h
        · simp [h]
        · exact .inr h
      · exact mem_consCell h

theorem consCell_rise {l : List Host.Cell} {a : Nat} {v : Byte} (h : CellsRise l)
    (ha : ∀ c ∈ l, a < c.1) : CellsRise (consCell a v l) := by
  unfold consCell
  split
  · exact h
  · exact List.pairwise_cons.mpr ⟨ha, h⟩

theorem setCell_rise {l : List Host.Cell} (a : Nat) (v : Byte) (h : CellsRise l) :
    CellsRise (setCell l a v) := by
  induction l with
  | nil => exact consCell_rise h (by simp)
  | cons d rest ih =>
    obtain ⟨k, w⟩ := d
    obtain ⟨hk, hrest⟩ := List.pairwise_cons.mp h
    rw [setCell]
    split
    · refine List.pairwise_cons.mpr ⟨fun c hc => ?_, ih hrest⟩
      rcases mem_setCell hc with hc | ⟨rfl, -⟩
      · exact hk c hc
      · assumption
    · split
      · subst_vars; exact consCell_rise hrest hk
      · refine consCell_rise h fun c hc => ?_
        rcases List.mem_cons.mp hc with rfl | hc
        · simp; omega
        · have := hk c hc; simp at this; omega

/-- Read after write on cells in canonical form. -/
theorem cellAt_setCell {l : List Host.Cell} (a : Nat) (v : Byte) (b : Nat) (h : CellsRise l) :
    cellAt (setCell l a v) b = if b = a then v else cellAt l b := by
  induction l with
  | nil => exact cellAt_consCell v b (by simp)
  | cons d rest ih =>
    obtain ⟨k, w⟩ := d
    obtain ⟨hk, hrest⟩ := List.pairwise_cons.mp h
    rw [setCell]
    split
    · simp only [cellAt, ih hrest]
      split <;> split <;> first | rfl | omega
    · split
      · rename_i hka
        subst hka
        rw [cellAt_consCell v b hk, cellAt]
        by_cases hb : b = k
        · simp [hb]
        · simp [hb, Ne.symm hb]
      · refine cellAt_consCell v b fun c hc => ?_
        rcases List.mem_cons.mp hc with rfl | hc
        · simp; omega
        · have := hk c hc; simp at this; omega

/-! ### Images -/

theorem imageCells_bounds {base : Nat} {image : List Byte} {c : Host.Cell}
    (h : c ∈ imageCells base image) :
    base ≤ c.1 ∧ c.1 < base + image.length ∧ c.2 ≠ unlistedByte := by
  induction image generalizing base with
  | nil => simp [imageCells] at h
  | cons b rest ih =>
    rcases mem_consCell h with h | ⟨rfl, hv⟩
    · have := ih h
      simp only [List.length_cons]
      exact ⟨by omega, by omega, this.2.2⟩
    · simp [hv]

theorem imageCells_rise (base : Nat) (image : List Byte) : CellsRise (imageCells base image) := by
  induction image generalizing base with
  | nil => exact List.Pairwise.nil
  | cons b rest ih =>
    exact consCell_rise (ih _) fun c hc => by have := imageCells_bounds hc; omega

/-- The cells of an image read as its bytes. -/
theorem cellAt_imageCells (base : Nat) (image : List Byte) (k : Nat) (h : k < image.length) :
    cellAt (imageCells base image) (base + k) = image[k] := by
  induction image generalizing base k with
  | nil => simp at h
  | cons b rest ih =>
    rw [imageCells, cellAt_consCell b _ fun c hc => by have := imageCells_bounds hc; omega]
    cases k with
    | zero => simp
    | succ k =>
      rw [if_neg (by omega), show base + (k + 1) = base + 1 + k by omega,
        ih (base + 1) k (by simpa using h)]
      rfl

/-! ### Memory.wf -/

theorem Memory.wf_iff (m : Memory) :
    m.wf = true ↔ CellsRise m.cells ∧ ∀ c ∈ m.cells, c.1 < m.len ∧ c.2 ≠ unlistedByte := by
  simp [Memory.wf]

theorem imageMemory_wf (image : List Byte) : (imageMemory image).wf = true := by
  refine (Memory.wf_iff _).mpr ⟨imageCells_rise 0 image, fun c hc => ?_⟩
  have := imageCells_bounds hc
  exact ⟨by simpa [imageMemory] using this.2.1, this.2.2⟩

theorem memWrite_wf {m n : Memory} {a : Nat} {v : Byte} (h : m.wf = true)
    (hw : memWrite m a v = .ok n) : n.wf = true := by
  unfold memWrite at hw
  split at hw
  · cases hw
    obtain ⟨hr, hc⟩ := (Memory.wf_iff m).mp h
    refine (Memory.wf_iff _).mpr ⟨setCell_rise a v hr, fun c hmem => ?_⟩
    rcases mem_setCell hmem with hmem | ⟨rfl, hv⟩
    · exact hc c hmem
    · exact ⟨‹_›, hv⟩
  · cases hw

theorem pokeByte_wf {m : Memory} (a : Nat) (v : Byte) (h : m.wf = true) :
    (pokeByte m a v).wf = true := by
  obtain ⟨hr, hc⟩ := (Memory.wf_iff m).mp h
  refine (Memory.wf_iff _).mpr ⟨setCell_rise a v hr, fun c hmem => ?_⟩
  rcases mem_setCell hmem with hmem | ⟨rfl, hv⟩
  · exact ⟨lt_of_lt_of_le (hc c hmem).1 (le_max_left _ _), (hc c hmem).2⟩
  · exact ⟨lt_of_lt_of_le (Nat.lt_succ_self _) (le_max_right _ _), hv⟩

theorem pokeBytes_wf {m : Memory} (a : Nat) (bytes : List Byte) (h : m.wf = true) :
    (pokeBytes m a bytes).wf = true := by
  induction bytes generalizing m a with
  | nil => exact h
  | cons b rest ih => exact ih (a + 1) (pokeByte_wf a b h)

/-! ### memRead -/

theorem memRead_ok {m : Memory} {a : Nat} (h : a < m.len) : memRead m a = .ok (cellAt m.cells a) := by
  simp [memRead, h]

theorem memRead_error {m : Memory} {a : Nat} (h : m.len ≤ a) :
    memRead m a = .error (.outOfBounds a) := by simp [memRead, Nat.not_lt.mpr h]

/-- A read that answers a byte was in bounds. -/
theorem memRead_eq_ok {m : Memory} {a : Nat} {b : Byte} (h : memRead m a = .ok b) : a < m.len := by
  unfold memRead at h; split at h
  · assumption
  · cases h

/-- The one error of a read. -/
theorem memRead_eq_error {m : Memory} {a : Nat} {e : Err} (h : memRead m a = .error e) :
    m.len ≤ a ∧ e = .outOfBounds a := by
  unfold memRead at h; split at h
  · cases h
  · cases h; exact ⟨by omega, rfl⟩

/-- Reading after placing one byte: the byte itself, and every byte that was in bounds, unchanged. -/
theorem memRead_pokeByte {m : Memory} (a : Nat) (v : Byte) (b : Nat) (h : m.wf = true) :
    memRead (pokeByte m a v) b =
      if b = a then .ok v
      else if b < max m.len (a + 1) then .ok (cellAt m.cells b) else .error (.outOfBounds b) := by
  have hr := ((Memory.wf_iff m).mp h).1
  unfold memRead pokeByte
  simp only [cellAt_setCell a v b hr]
  by_cases hb : b = a
  · subst hb; simp
  · simp only [hb, if_false]

end Sys2Proof.Machine
end

