-- ==== Sys2Proof/Laws/State.lean ====
section
/-!
SUPPORT. One lemma per field of the state per named update, so that later proofs never unfold a record
update.
-/

namespace Sys2Proof.Machine

open Sys2Proof

variable (s : State) (r : Reg) (v : Word) (n : Nat) (c : Bool) (e : Err)

/-! ### setReg -/

@[simp] theorem setReg_mem : (setReg r v s).mem = s.mem := by cases r <;> rfl
@[simp] theorem setReg_pc : (setReg r v s).pc = s.pc := by cases r <;> rfl
@[simp] theorem setReg_zf : (setReg r v s).zf = s.zf := by cases r <;> rfl
@[simp] theorem setReg_status : (setReg r v s).status = s.status := by cases r <;> rfl
@[simp] theorem setReg_trace : (setReg r v s).trace = s.trace := by cases r <;> rfl
@[simp] theorem setReg_sel : (setReg r v s).sel = s.sel := by cases r <;> rfl

/-- The register written reads as the value written (R9). -/
@[simp] theorem getReg_setReg_same : getReg (setReg r v s) r = v := by cases r <;> rfl

/-- Every other register reads as before. -/
theorem getReg_setReg_other (q : Reg) (h : q ≠ r) : getReg (setReg r v s) q = getReg s q := by
  cases r <;> cases q <;> first | rfl | exact absurd rfl h

/-! ### setPc, advance -/

@[simp] theorem setPc_mem : (setPc v s).mem = s.mem := rfl
@[simp] theorem setPc_gpr : (setPc v s).gpr = s.gpr := rfl
@[simp] theorem setPc_pc : (setPc v s).pc = v := rfl
@[simp] theorem setPc_zf : (setPc v s).zf = s.zf := rfl
@[simp] theorem setPc_status : (setPc v s).status = s.status := rfl
@[simp] theorem setPc_trace : (setPc v s).trace = s.trace := rfl
@[simp] theorem setPc_sel : (setPc v s).sel = s.sel := rfl
@[simp] theorem getReg_setPc : getReg (setPc v s) r = getReg s r := by cases r <;> rfl

@[simp] theorem advance_mem : (advance n s).mem = s.mem := rfl
@[simp] theorem advance_gpr : (advance n s).gpr = s.gpr := rfl
@[simp] theorem advance_pc : (advance n s).pc = s.pc + BitVec.ofNat 64 n := rfl
@[simp] theorem advance_zf : (advance n s).zf = s.zf := rfl
@[simp] theorem advance_status : (advance n s).status = s.status := rfl
@[simp] theorem advance_trace : (advance n s).trace = s.trace := rfl
@[simp] theorem advance_sel : (advance n s).sel = s.sel := rfl
@[simp] theorem getReg_advance : getReg (advance n s) r = getReg s r := by cases r <;> rfl

/-! ### setZf -/

@[simp] theorem setZf_mem : (setZf c s).mem = s.mem := rfl
@[simp] theorem setZf_gpr : (setZf c s).gpr = s.gpr := rfl
@[simp] theorem setZf_pc : (setZf c s).pc = s.pc := rfl
@[simp] theorem setZf_zf : (setZf c s).zf = c := rfl
@[simp] theorem setZf_status : (setZf c s).status = s.status := rfl
@[simp] theorem setZf_trace : (setZf c s).trace = s.trace := rfl
@[simp] theorem setZf_sel : (setZf c s).sel = s.sel := rfl
@[simp] theorem getReg_setZf : getReg (setZf c s) r = getReg s r := by cases r <;> rfl

/-! ### raise -/

@[simp] theorem raise_mem : (raise e s).mem = s.mem := rfl
@[simp] theorem raise_gpr : (raise e s).gpr = s.gpr := rfl
@[simp] theorem raise_pc : (raise e s).pc = s.pc := rfl
@[simp] theorem raise_zf : (raise e s).zf = s.zf := rfl
@[simp] theorem raise_status : (raise e s).status = .halted e := rfl
@[simp] theorem raise_trace : (raise e s).trace = none := rfl
@[simp] theorem raise_sel : (raise e s).sel = s.sel := rfl
@[simp] theorem getReg_raise : getReg (raise e s) r = getReg s r := by cases r <;> rfl

/-! ### emitTrace -/

variable (i : Instr)

@[simp] theorem emitTrace_mem : (emitTrace i s).mem = s.mem := by unfold emitTrace; split <;> rfl
@[simp] theorem emitTrace_gpr : (emitTrace i s).gpr = s.gpr := by unfold emitTrace; split <;> rfl
@[simp] theorem emitTrace_pc : (emitTrace i s).pc = s.pc := by unfold emitTrace; split <;> rfl
@[simp] theorem emitTrace_zf : (emitTrace i s).zf = s.zf := by unfold emitTrace; split <;> rfl
@[simp] theorem emitTrace_status : (emitTrace i s).status = s.status := by
  unfold emitTrace; split <;> simp_all
@[simp] theorem emitTrace_sel : (emitTrace i s).sel = s.sel := by unfold emitTrace; split <;> rfl
@[simp] theorem getReg_emitTrace : getReg (emitTrace i s) r = getReg s r := by
  cases r <;> simp [getReg]

/-- A completed step hands over its snapshot (R162). -/
theorem emitTrace_running (h : s.status = .running) :
    emitTrace i s = { s with trace := some (snapshot i s) } := by simp [emitTrace, h]

/-- A step that raised an error hands over none (R156). -/
@[simp] theorem emitTrace_raise : emitTrace i (raise e s) = raise e s := rfl

/-! ### load, withFetchWord's surroundings -/

variable (m : SelMap) (image : List Byte)

@[simp] theorem load_mem : (load m image).mem = imageMemory image := rfl
@[simp] theorem load_pc : (load m image).pc = 0 := rfl
@[simp] theorem load_zf : (load m image).zf = false := rfl
@[simp] theorem load_status : (load m image).status = .running := rfl
@[simp] theorem load_trace : (load m image).trace = none := rfl
@[simp] theorem load_sel : (load m image).sel = m := rfl
@[simp] theorem getReg_load : getReg (load m image) r = 0 := by cases r <;> rfl

end Sys2Proof.Machine
end

