-- ==== Sys2Proof/Laws/Ops.lean ====
section
/-!
SUPPORT. One spec lemma per shared operation: resolution, the one- and two-selector forms, decoding
from a reader, and the words placed for the next fetch.
-/

namespace Sys2Proof.Machine

open Sys2Proof

/-! ### resolve -/

/-- A resolved selector byte is the byte of the register it names. -/
theorem resolve_eq_ok {m : SelMap} {b : Selector} {r : Reg} (h : resolve m b = .ok r) :
    b = selByte m r := by
  unfold resolve at h
  split at h
  · cases h; assumption
  · split at h
    · cases h; assumption
    · split at h
      · cases h; assumption
      · split at h
        · cases h; assumption
        · cases h

/-- What an unresolved selector byte raises, and why. -/
theorem resolve_eq_error {m : SelMap} {b : Selector} {e : Err} (h : resolve m b = .error e) :
    e = .invalidRegister b ∧ ∀ r, b ≠ selByte m r := by
  unfold resolve at h
  split at h
  · cases h
  · split at h
    · cases h
    · split at h
      · cases h
      · split at h
        · cases h
        · cases h
          exact ⟨rfl, fun r => by cases r <;> assumption⟩

theorem resolve_of_no_register {m : SelMap} {b : Selector} (h : ∀ r, b ≠ selByte m r) :
    resolve m b = .error (.invalidRegister b) := by
  simp [resolve, h .r0, h .r1, h .r2, h .r3]

theorem isSelector_eq_false {m : SelMap} {b : Selector} :
    isSelector m b = false ↔ ∀ r, b ≠ selByte m r := by
  simp only [isSelector, Bool.or_eq_false_iff, beq_eq_false_iff_ne]
  exact ⟨fun h r => by obtain ⟨⟨⟨h0, h1⟩, h2⟩, h3⟩ := h; cases r <;> assumption,
    fun h => ⟨⟨⟨h .r0, h .r1⟩, h .r2⟩, h .r3⟩⟩

/-! ### The selector forms -/

theorem withReg_ok {rs : Selector} {s : State} {r : Reg} (effect : Reg → State)
    (h : resolve s.sel rs = .ok r) : withReg rs s effect = .next (effect r) := by
  simp [withReg, h]

theorem withReg_error {rs : Selector} {s : State} {e : Err} (effect : Reg → State)
    (h : resolve s.sel rs = .error e) : withReg rs s effect = .next (raise e s) := by
  simp [withReg, h]

theorem withRegs_ok {rd rs2 : Selector} {s : State} {d q : Reg} (effect : Reg → Reg → State)
    (h1 : resolve s.sel rd = .ok d) (h2 : resolve s.sel rs2 = .ok q) :
    withRegs rd rs2 s effect = .next (effect d q) := by
  simp [withRegs, h1, h2]

theorem withRegs_error_first {rd rs2 : Selector} {s : State} {e : Err} (effect : Reg → Reg → State)
    (h1 : resolve s.sel rd = .error e) : withRegs rd rs2 s effect = .next (raise e s) := by
  simp [withRegs, h1]

theorem withRegs_error_second {rd rs2 : Selector} {s : State} {d : Reg} {e : Err}
    (effect : Reg → Reg → State) (h1 : resolve s.sel rd = .ok d)
    (h2 : resolve s.sel rs2 = .error e) : withRegs rd rs2 s effect = .next (raise e s) := by
  simp [withRegs, h1, h2]

/-- Everything the one-selector form can do. -/
theorem withReg_cases {rs : Selector} {s t : State} {effect : Reg → State}
    (h : withReg rs s effect = .next t) :
    (t = raise (.invalidRegister rs) s ∧ ∀ r, rs ≠ selByte s.sel r) ∨
      ∃ r, resolve s.sel rs = .ok r ∧ t = effect r := by
  rcases hr : resolve s.sel rs with e | r
  · obtain ⟨rfl, hn⟩ := resolve_eq_error hr
    rw [withReg_error effect hr] at h
    exact .inl ⟨by injection h with h; exact h.symm, hn⟩
  · rw [withReg_ok effect hr] at h
    exact .inr ⟨r, rfl, by injection h with h; exact h.symm⟩

/-- Everything the two-selector form can do. -/
theorem withRegs_cases {rd rs2 : Selector} {s t : State} {effect : Reg → Reg → State}
    (h : withRegs rd rs2 s effect = .next t) :
    (t = raise (.invalidRegister rd) s ∧ ∀ r, rd ≠ selByte s.sel r) ∨
      (t = raise (.invalidRegister rs2) s ∧ (∃ d, resolve s.sel rd = .ok d) ∧
        ∀ r, rs2 ≠ selByte s.sel r) ∨
      ∃ d q, resolve s.sel rd = .ok d ∧ resolve s.sel rs2 = .ok q ∧ t = effect d q := by
  rcases h1 : resolve s.sel rd with e | d
  · obtain ⟨rfl, hn⟩ := resolve_eq_error h1
    rw [withRegs_error_first effect h1] at h
    exact .inl ⟨by injection h with h; exact h.symm, hn⟩
  · rcases h2 : resolve s.sel rs2 with e | q
    · obtain ⟨rfl, hn⟩ := resolve_eq_error h2
      rw [withRegs_error_second effect h1 h2] at h
      exact .inr (.inl ⟨by injection h with h; exact h.symm, ⟨d, rfl⟩, hn⟩)
    · rw [withRegs_ok effect h1 h2] at h
      exact .inr (.inr ⟨d, q, rfl, rfl, by injection h with h; exact h.symm⟩)

/-! ### Literals and the comparison -/

@[simp] theorem zext64_toNat (b : Literal) : (zext64 b).toNat = b.toNat := by
  have := b.isLt
  simp [zext64]; omega

@[simp] theorem jumpTarget_toNat (b : Literal) : (jumpTarget b).toNat = b.toNat := by
  have := b.isLt
  simp [jumpTarget]; omega

/-- The comparison as the decision of any equivalent proposition. -/
theorem eq64_eq_decide {a b : Word} {p : Prop} [Decidable p] (h : a = b ↔ p) :
    eq64 a b = decide p := by simp [eq64, Bool.beq_eq_decide_eq, h]

/-! ### decodeFrom -/

/-- What the decoder answers depends on the reader at the bytes 0, 1 and 2 alone. -/
theorem decodeFrom_congr {f g : Nat → Except Err Byte} (h0 : f 0 = g 0) (h1 : f 1 = g 1)
    (h2 : f 2 = g 2) : decodeFrom f = decodeFrom g := by
  unfold decodeFrom
  rw [h0]
  cases g 0 with
  | error e => rfl
  | ok op =>
    simp only
    cases schemaOf op with
    | none => rfl
    | some schema => cases schema <;> simp only [readOperands, readOne, readTwo, h1, h2]

end Sys2Proof.Machine
end

