-- ==== Sys2Proof/Laws/Exec.lean ====
section
/-!
SUPPORT. What an execution can do, said once for all instructions: it always answers a next state,
which either carries InvalidRegister for a selector of the instruction or commits the effect.
-/

namespace Sys2Proof.Machine

open Sys2Proof

/-- pc after a completed instruction (R74). -/
def pcAfter (s : State) : Instr → Word
  | .addRegImm _ _ => s.pc + 3
  | .addRegReg _ _ => s.pc + 3
  | .incReg _ => s.pc + 2
  | .decReg _ => s.pc + 2
  | .subRegImm _ _ => s.pc + 3
  | .subRegReg _ _ => s.pc + 3
  | .movRegImm _ _ => s.pc + 3
  | .movRegReg _ _ => s.pc + 3
  | .jmpImm imm8 => jumpTarget imm8
  | .cmpRegImm _ _ => s.pc + 3
  | .cmpRegReg _ _ => s.pc + 3
  | .jzImm imm8 => if s.zf then jumpTarget imm8 else s.pc + 2

/-- What every instruction's own effect leaves as it was, and where it leaves pc. -/
structure Commits (i : Instr) (s t : State) : Prop where
  selectors : ∀ b ∈ selectorsOf i, ∃ r, resolve s.sel b = .ok r
  mem : t.mem = s.mem
  status : t.status = s.status
  trace : t.trace = s.trace
  sel : t.sel = s.sel
  pc : t.pc = pcAfter s i

/-- The error an execution raises: that of the first selector no register has. -/
structure RaisesSelector (i : Instr) (s t : State) (b : Selector) : Prop where
  mem_selectors : b ∈ selectorsOf i
  no_register : ∀ r, b ≠ selByte s.sel r
  raised : t = raise (.invalidRegister b) s

theorem withReg_outcome {i : Instr} {rs : Selector} {s t : State} {effect : Reg → State}
    (hsel : selectorsOf i = [rs]) (heff : ∀ r, resolve s.sel rs = .ok r → Commits i s (effect r))
    (h : withReg rs s effect = .next t) : (∃ b, RaisesSelector i s t b) ∨ Commits i s t := by
  rcases withReg_cases h with ⟨rfl, hn⟩ | ⟨r, hr, rfl⟩
  · exact .inl ⟨rs, by simp [hsel], hn, rfl⟩
  · exact .inr (heff r hr)

theorem withRegs_outcome {i : Instr} {rd rs2 : Selector} {s t : State} {effect : Reg → Reg → State}
    (hsel : selectorsOf i = [rd, rs2])
    (heff : ∀ d q, resolve s.sel rd = .ok d → resolve s.sel rs2 = .ok q → Commits i s (effect d q))
    (h : withRegs rd rs2 s effect = .next t) : (∃ b, RaisesSelector i s t b) ∨ Commits i s t := by
  rcases withRegs_cases h with ⟨rfl, hn⟩ | ⟨rfl, -, hn⟩ | ⟨d, q, hd, hq, rfl⟩
  · exact .inl ⟨rd, by simp [hsel], hn, rfl⟩
  · exact .inl ⟨rs2, by simp [hsel], hn, rfl⟩
  · exact .inr (heff d q hd hq)

/-- Everything an execution can do. -/
theorem exec_cases {i : Instr} {s t : State} (h : exec i s = .next t) :
    (∃ b, RaisesSelector i s t b) ∨ Commits i s t := by
  cases i with
  | jmpImm imm8 =>
    cases h
    exact .inr ⟨by simp [selectorsOf], rfl, rfl, rfl, rfl, rfl⟩
  | jzImm imm8 =>
    cases h
    refine .inr ⟨by simp [selectorsOf], ?_, ?_, ?_, ?_, ?_⟩ <;> split <;> simp [pcAfter, *]
  | addRegImm rs imm8 | subRegImm rs imm8 | movRegImm rs imm8 | cmpRegImm rs imm8 =>
    exact withReg_outcome rfl
      (fun r hr => ⟨by simpa [selectorsOf] using ⟨r, hr⟩, by simp, by simp, by simp, by simp,
        by simp [pcAfter]⟩) h
  | incReg rs | decReg rs =>
    exact withReg_outcome rfl
      (fun r hr => ⟨by simpa [selectorsOf] using ⟨r, hr⟩, by simp, by simp, by simp, by simp,
        by simp [pcAfter]⟩) h
  | addRegReg rd rs2 | subRegReg rd rs2 | movRegReg rd rs2 | cmpRegReg rd rs2 =>
    exact withRegs_outcome rfl
      (fun d q hd hq => ⟨by simpa [selectorsOf] using ⟨⟨d, hd⟩, q, hq⟩, by simp, by simp, by simp,
        by simp, by simp [pcAfter]⟩) h

theorem withReg_next (rs : Selector) (s : State) (effect : Reg → State) :
    ∃ t, withReg rs s effect = .next t := by
  unfold withReg; split <;> exact ⟨_, rfl⟩

theorem withRegs_next (rd rs2 : Selector) (s : State) (effect : Reg → Reg → State) :
    ∃ t, withRegs rd rs2 s effect = .next t := by
  unfold withRegs; split
  · exact ⟨_, rfl⟩
  · split <;> exact ⟨_, rfl⟩

/-- An execution always answers a next state. -/
theorem exec_next (i : Instr) (s : State) : ∃ t, exec i s = .next t := by
  cases i
  case jmpImm => exact ⟨_, rfl⟩
  case jzImm => exact ⟨_, rfl⟩
  all_goals first | exact withReg_next _ _ _ | exact withRegs_next _ _ _ _

/-! ### Changes of the state an execution does not look at -/

/-- Applies a change to the next state an execution answers. -/
def mapNext (change : State → State) : Result → Result
  | .next t => .next (change t)
  | .fault f => .fault f
  | .refused r => .refused r

theorem withReg_map {rs : Selector} {s s' : State} {effect effect' : Reg → State}
    (change : State → State) (hsel : s'.sel = s.sel) (hraise : ∀ e, raise e s' = change (raise e s))
    (heff : ∀ r, effect' r = change (effect r)) :
    withReg rs s' effect' = mapNext change (withReg rs s effect) := by
  simp only [withReg, hsel]
  split <;> simp [mapNext, hraise, heff]

theorem withRegs_map {rd rs2 : Selector} {s s' : State} {effect effect' : Reg → Reg → State}
    (change : State → State) (hsel : s'.sel = s.sel) (hraise : ∀ e, raise e s' = change (raise e s))
    (heff : ∀ d q, effect' d q = change (effect d q)) :
    withRegs rd rs2 s' effect' = mapNext change (withRegs rd rs2 s effect) := by
  simp only [withRegs, hsel]
  split
  · simp [mapNext, hraise]
  · split <;> simp [mapNext, hraise, heff]

/-- An execution reads no memory and writes none: it commutes with a change of memory. -/
theorem exec_change_mem (i : Instr) (s : State) (other : Memory) :
    exec i { s with mem := other } = mapNext (fun t => { t with mem := other }) (exec i s) := by
  cases i
  case jmpImm => rfl
  case jzImm => simp only [exec, execJzImm, mapNext]; split <;> rfl
  all_goals first
    | exact withReg_map _ rfl (fun _ => rfl) fun r => by cases r <;> rfl
    | exact withRegs_map _ rfl (fun _ => rfl) fun d q => by cases d <;> cases q <;> rfl

end Sys2Proof.Machine
end

