-- ==== Sys2Proof/Laws/PerInstr.lean ====
section
/-!
SUPPORT. Facts stated one instruction at a time, about the instruction as a term: the length of its
encoding and the schema its opcode byte selects (spec/30_encoding.md R61, R66, R69).
-/

namespace Sys2Proof.Laws

open Sys2Proof

/-- The encoding has the length of R66, and its opcode byte selects a schema of that length. -/
def EncodeShape.Statement (i : Instr) : Prop :=
  (encode i).length = instrLength i ∧
    ((encode i).head?.bind schemaOf).map schemaLength = some (instrLength i)

theorem EncodeShape.addRegImm (rs : Selector) (imm8 : Literal) :
    EncodeShape.Statement (.addRegImm rs imm8) := ⟨rfl, rfl⟩

theorem EncodeShape.addRegReg (rd rs2 : Selector) :
    EncodeShape.Statement (.addRegReg rd rs2) := ⟨rfl, rfl⟩

theorem EncodeShape.incReg (rs : Selector) : EncodeShape.Statement (.incReg rs) := ⟨rfl, rfl⟩

theorem EncodeShape.decReg (rs : Selector) : EncodeShape.Statement (.decReg rs) := ⟨rfl, rfl⟩

theorem EncodeShape.subRegImm (rs : Selector) (imm8 : Literal) :
    EncodeShape.Statement (.subRegImm rs imm8) := ⟨rfl, rfl⟩

theorem EncodeShape.subRegReg (rd rs2 : Selector) :
    EncodeShape.Statement (.subRegReg rd rs2) := ⟨rfl, rfl⟩

theorem EncodeShape.movRegImm (rs : Selector) (imm8 : Literal) :
    EncodeShape.Statement (.movRegImm rs imm8) := ⟨rfl, rfl⟩

theorem EncodeShape.movRegReg (rd rs2 : Selector) :
    EncodeShape.Statement (.movRegReg rd rs2) := ⟨rfl, rfl⟩

theorem EncodeShape.jmpImm (imm8 : Literal) : EncodeShape.Statement (.jmpImm imm8) := ⟨rfl, rfl⟩

theorem EncodeShape.cmpRegImm (rs : Selector) (imm8 : Literal) :
    EncodeShape.Statement (.cmpRegImm rs imm8) := ⟨rfl, rfl⟩

theorem EncodeShape.cmpRegReg (rd rs2 : Selector) :
    EncodeShape.Statement (.cmpRegReg rd rs2) := ⟨rfl, rfl⟩

theorem EncodeShape.jzImm (imm8 : Literal) : EncodeShape.Statement (.jzImm imm8) := ⟨rfl, rfl⟩

end Sys2Proof.Laws
end

