-- ==== Sys2Proof/Laws/Step.lean ====
section
/-!
SUPPORT. What a step can do, said once: it stops on a halted block; on a running one it raises the
error of the fetch, or hands over what the execution of the fetched instruction answers.
-/

namespace Sys2Proof.Machine

open Sys2Proof

theorem step_halted {s : State} {e : Err} (h : s.status = .halted e) :
    step s = .fault (.halted e) := by simp [step, h]

theorem step_fetch_error {s : State} {e : Err} (hs : s.status = .running)
    (hf : fetch s = .error e) : step s = .next (raise e s) := by simp [step, hs, hf]

theorem step_fetch_ok {s : State} {i : Instr} (hs : s.status = .running) (hf : fetch s = .ok i) :
    step s = handOver i (exec i s) := by simp [step, hs, hf]

/-- Everything a step that answers a next state can do: the fetch raised an error; the execution
raised InvalidRegister; or the instruction committed its effect and handed over its snapshot. -/
theorem step_cases {s t : State} (h : step s = .next t) :
    s.status = .running ∧
      ((∃ e, fetch s = .error e ∧ t = raise e s) ∨
        (∃ i b, fetch s = .ok i ∧ RaisesSelector i s t b) ∨
        ∃ i u, fetch s = .ok i ∧ exec i s = .next u ∧ Commits i s u ∧ t = emitTrace i u) := by
  rcases hs : s.status with _ | e
  · refine ⟨rfl, ?_⟩
    rcases hf : fetch s with e | i
    · rw [step_fetch_error hs hf] at h
      exact .inl ⟨e, rfl, by injection h with h; exact h.symm⟩
    · rw [step_fetch_ok hs hf] at h
      obtain ⟨u, hu⟩ := exec_next i s
      rw [hu] at h
      obtain rfl : emitTrace i u = t := by injection h
      rcases exec_cases hu with ⟨b, hb⟩ | hc
      · obtain ⟨hm, hn, rfl⟩ := hb
        exact .inr (.inl ⟨i, b, rfl, hm, hn, by simp⟩)
      · exact .inr (.inr ⟨i, u, rfl, hu, hc, rfl⟩)
  · rw [step_halted hs] at h; cases h

/-! ### The fetch -/

theorem readOne_fetch_error {s : State} {make : Byte → Instr} {e : Err}
    (h : readOne (fetchByte s) make = .error e) :
    s.mem.len ≤ s.pc.toNat + 1 ∧ e = .outOfBounds (s.pc.toNat + 1) := by
  unfold readOne at h
  split at h
  · cases h; exact memRead_eq_error ‹_›
  · cases h

theorem readTwo_fetch_error {s : State} {make : Byte → Byte → Instr} {e : Err}
    (h : readTwo (fetchByte s) make = .error e) :
    (s.mem.len ≤ s.pc.toNat + 1 ∧ e = .outOfBounds (s.pc.toNat + 1)) ∨
      (s.pc.toNat + 1 < s.mem.len ∧ s.mem.len ≤ s.pc.toNat + 2 ∧
        e = .outOfBounds (s.pc.toNat + 2)) := by
  unfold readTwo at h
  split at h
  · cases h; exact .inl (memRead_eq_error ‹_›)
  · split at h
    · cases h; exact .inr ⟨memRead_eq_ok ‹_›, memRead_eq_error ‹_›⟩
    · cases h

/-- Everything that can go wrong in a fetch: R151 (a), R153, R151 (b), R151 (c). -/
theorem fetch_error_cases {s : State} {e : Err} (h : fetch s = .error e) :
    (s.mem.len ≤ s.pc.toNat ∧ e = .outOfBounds s.pc.toNat) ∨
      ∃ op, memRead s.mem s.pc.toNat = .ok op ∧
        ((schemaOf op = none ∧ e = .unsupportedInstruction op) ∨
          ∃ schema, schemaOf op = some schema ∧
            ((s.mem.len ≤ s.pc.toNat + 1 ∧ e = .outOfBounds (s.pc.toNat + 1)) ∨
              (schemaLength schema = 3 ∧ s.pc.toNat + 1 < s.mem.len ∧
                s.mem.len ≤ s.pc.toNat + 2 ∧ e = .outOfBounds (s.pc.toNat + 2)))) := by
  unfold fetch decodeFrom at h
  split at h
  · rename_i e' h0
    cases h
    exact .inl (memRead_eq_error h0)
  · rename_i op h0
    refine .inr ⟨op, h0, ?_⟩
    split at h
    · cases h; exact .inl ⟨‹_›, rfl⟩
    · rename_i schema hs
      refine .inr ⟨schema, hs, ?_⟩
      cases schema with
      | ri make => exact (readTwo_fetch_error h).imp_right fun hr => ⟨rfl, hr⟩
      | rr make => exact (readTwo_fetch_error h).imp_right fun hr => ⟨rfl, hr⟩
      | r make => exact .inl (readOne_fetch_error h)
      | i make => exact .inl (readOne_fetch_error h)

end Sys2Proof.Machine
end

