-- ==== Sys2Proof/Tests/Slice0.lean ====
section
/-!
SUPPORT. The model's own tests. Expected results come from spec/95_test_vectors.md (its vectors are
named in the comments) and from the rules; `test_witness_…` theorems show a concrete state and
operands that meet the hypotheses of a statement.
-/

namespace Sys2Proof.Tests

open Sys2Proof Sys2Proof.Machine

/-- A block under the default SEL whose memory is the image, with the registers and flag given. -/
def block (image : List Byte) (a b c d : Word) (zf : Bool) : State :=
  { load defaultSel image with gpr := { r0 := a, r1 := b, r2 := c, r3 := d }, zf := zf }

/-- What a test looks at: registers, pc, flag and status of a next state. -/
def seen : Result → Option (Gprs × Word × Bool × Status)
  | .next t => some (t.gpr, t.pc, t.zf, t.status)
  | .fault _ => none
  | .refused _ => none

/-! ### WellFormed: one ill-formed term for each check -/

theorem test_wf_default_sel : defaultSel.wf = true := by decide
theorem test_ill_r1_is_r0 : (SelMap.mk 0x02 0x04 0x05).wf = false := by decide
theorem test_ill_r2_is_r0 : (SelMap.mk 0x03 0x02 0x05).wf = false := by decide
theorem test_ill_r3_is_r0 : (SelMap.mk 0x03 0x04 0x02).wf = false := by decide
theorem test_ill_r1_is_r2 : (SelMap.mk 0x03 0x03 0x05).wf = false := by decide
theorem test_ill_r1_is_r3 : (SelMap.mk 0x03 0x04 0x03).wf = false := by decide
theorem test_ill_r2_is_r3 : (SelMap.mk 0x03 0x04 0x04).wf = false := by decide
theorem test_wf_instr : (Instr.addRegReg 0x02 0x05).wf defaultSel = true := by decide
theorem test_ill_first_selector : (Instr.addRegReg 0x09 0x02).wf defaultSel = false := by decide
theorem test_ill_second_selector : (Instr.addRegReg 0x02 0x0A).wf defaultSel = false := by decide
theorem test_ill_image (n : Nat) (h : maxImageLen < n) : imageFits (List.replicate n 0x00) = false := by
  simp only [imageFits, List.length_replicate, decide_eq_false_iff_not]
  omega

/-! ### Decode: every constructor's word, written out from R61 and R66 -/

theorem test_decode_add_imm : decode [0b00000000, 0x02, 0xFF] = .ok (.addRegImm 0x02 0xFF) := by decide
theorem test_decode_add_reg : decode [0b00000001, 0x02, 0x03] = .ok (.addRegReg 0x02 0x03) := by decide
theorem test_decode_inc : decode [0b00010000, 0x02] = .ok (.incReg 0x02) := by decide
theorem test_decode_dec : decode [0b00100000, 0x02] = .ok (.decReg 0x02) := by decide
theorem test_decode_sub_imm : decode [0b00110000, 0x02, 0x03] = .ok (.subRegImm 0x02 0x03) := by decide
theorem test_decode_sub_reg : decode [0b00110001, 0x03, 0x02] = .ok (.subRegReg 0x03 0x02) := by decide
theorem test_decode_mov_imm : decode [0b01000000, 0x02, 0x05] = .ok (.movRegImm 0x02 0x05) := by decide
theorem test_decode_mov_reg : decode [0b01000001, 0x03, 0x02] = .ok (.movRegReg 0x03 0x02) := by decide
theorem test_decode_jmp : decode [0b01010000, 0x0C] = .ok (.jmpImm 0x0C) := by decide
theorem test_decode_cmp_imm : decode [0b01100000, 0x02, 0x03] = .ok (.cmpRegImm 0x02 0x03) := by decide
theorem test_decode_cmp_reg : decode [0b01100001, 0x02, 0x03] = .ok (.cmpRegReg 0x02 0x03) := by decide
theorem test_decode_jz : decode [0b01110000, 0x1C] = .ok (.jzImm 0x1C) := by decide
/-- The opcode table has each opcode once (R66). -/
theorem test_opcodes_distinct : (opcodeTable.map Prod.fst).Nodup := by decide
/-- The table's numbering: bits 7..0 the opcode, 15..8 byte 1, 23..16 byte 2; bits above `nbits` zero. -/
theorem test_table_word : decodeTableWord 24 0x050240 = some (.movRegImm 0x02 0x05) := by decide
theorem test_table_word_short : decodeTableWord 8 0xFF61 = some (.cmpRegReg 0x00 0x00) := by decide

/-! ### One step per test -/

/-- A1: the literal 0xFF is 255. -/
theorem test_add_imm : seen (step (block [0x00, 0x02, 0xFF] 5 0 0 0 false)) =
    some (⟨260, 0, 0, 0⟩, 3, false, .running) := by decide
/-- A3: MAX + 255. -/
theorem test_add_imm_wraps : seen (step (block [0x00, 0x02, 0xFF] maxWord 0 0 0 true)) =
    some (⟨0x80000000000000FE, 0, 0, 0⟩, 3, true, .running) := by decide
/-- A15: both operands are read before the write. -/
theorem test_add_reg_same : seen (step (block [0x01, 0x02, 0x02] 0x4000000000000000 0 0 0 false)) =
    some (⟨minWord, 0, 0, 0⟩, 3, false, .running) := by decide
/-- A18. -/
theorem test_add_reg : seen (step (block [0x01, 0x02, 0x03] 7 9 0 0 false)) =
    some (⟨16, 9, 0, 0⟩, 3, false, .running) := by decide
/-- A6. -/
theorem test_inc_wraps : seen (step (block [0x10, 0x02] maxWord 0 0 0 false)) =
    some (⟨minWord, 0, 0, 0⟩, 2, false, .running) := by decide
/-- A24: INC R3. -/
theorem test_inc_r3 : seen (step (block [0x10, 0x05] 0 0 0 5 false)) =
    some (⟨0, 0, 0, 6⟩, 2, false, .running) := by decide
/-- A9. -/
theorem test_dec_wraps : seen (step (block [0x20, 0x02] minWord 0 0 0 false)) =
    some (⟨maxWord, 0, 0, 0⟩, 2, false, .running) := by decide
/-- A11: a zero result does not set the flag. -/
theorem test_dec_keeps_flag : seen (step (block [0x20, 0x02] 1 0 0 0 false)) =
    some (⟨0, 0, 0, 0⟩, 2, false, .running) := by decide
/-- A14: MIN - 255. -/
theorem test_sub_imm : seen (step (block [0x30, 0x02, 0xFF] minWord 0 0 0 false)) =
    some (⟨0x7FFFFFFFFFFFFF01, 0, 0, 0⟩, 3, false, .running) := by decide
/-- A20: 3 - 5 = -2, the operands in their order. -/
theorem test_sub_reg : seen (step (block [0x31, 0x02, 0x03] 3 5 0 0 false)) =
    some (⟨0xFFFFFFFFFFFFFFFE, 5, 0, 0⟩, 3, false, .running) := by decide
/-- M1: 0x80 is 128. -/
theorem test_mov_imm : seen (step (block [0x40, 0x02, 0x80] minWord 0 0 0 true)) =
    some (⟨128, 0, 0, 0⟩, 3, true, .running) := by decide
/-- M2. -/
theorem test_mov_reg : seen (step (block [0x41, 0x02, 0x03] 0 neg1Word 0 0 false)) =
    some (⟨neg1Word, neg1Word, 0, 0⟩, 3, false, .running) := by decide
/-- J1: the target is beyond L and JMP still completes. -/
theorem test_jmp : seen (step (block [0x50, 0x09] 1 2 3 4 true)) =
    some (⟨1, 2, 3, 4⟩, 9, true, .running) := by decide
/-- C3: the literal is 255, not -1. -/
theorem test_cmp_imm_unequal : seen (step (block [0x60, 0x02, 0xFF] neg1Word 0 0 0 true)) =
    some (⟨neg1Word, 0, 0, 0⟩, 3, false, .running) := by decide
/-- C1. -/
theorem test_cmp_imm_equal : seen (step (block [0x60, 0x02, 0x03] 3 0 0 0 false)) =
    some (⟨3, 0, 0, 0⟩, 3, true, .running) := by decide
/-- C8: MIN and MAX are unequal. -/
theorem test_cmp_reg_unequal : seen (step (block [0x61, 0x02, 0x03] minWord maxWord 0 0 true)) =
    some (⟨minWord, maxWord, 0, 0⟩, 3, false, .running) := by decide
/-- C7. -/
theorem test_cmp_reg_same : seen (step (block [0x61, 0x02, 0x02] minWord 0 0 0 false)) =
    some (⟨minWord, 0, 0, 0⟩, 3, true, .running) := by decide
/-- Z1, with a target above 127 (D15). -/
theorem test_jz_taken : seen (step (block [0x70, 0x85] 0 0 0 0 true)) =
    some (⟨0, 0, 0, 0⟩, 133, true, .running) := by decide
/-- Z2. -/
theorem test_jz_not_taken : seen (step (block [0x70, 0x05] 0 0 0 0 false)) =
    some (⟨0, 0, 0, 0⟩, 2, false, .running) := by decide

/-! ### Errors (E1, E2, E5, E6, E7, E8, E9, Z3), the record, the trace, start-up -/

/-- The status a step leaves. -/
def statusAfter (image : List Byte) : Option Status :=
  (seen (step (load defaultSel image))).map fun x => x.2.2.2

theorem test_empty_image : statusAfter [] = some (.halted (.outOfBounds 0)) := by decide
theorem test_unsupported : statusAfter [0x99] = some (.halted (.unsupportedInstruction 0x99)) := by decide
theorem test_missing_byte_1 : statusAfter [0x10] = some (.halted (.outOfBounds 1)) := by decide
theorem test_missing_byte_2 : statusAfter [0x00, 0x02] = some (.halted (.outOfBounds 2)) := by decide
theorem test_bounds_before_selector : statusAfter [0x01, 0x09] = some (.halted (.outOfBounds 2)) := by decide
theorem test_first_selector_first : statusAfter [0x01, 0x09, 0x0A] =
    some (.halted (.invalidRegister 0x09)) := by decide
theorem test_second_selector : statusAfter [0x01, 0x02, 0x0A] =
    some (.halted (.invalidRegister 0x0A)) := by decide
theorem test_jz_reads_operand : statusAfter [0x70] = some (.halted (.outOfBounds 1)) := by decide
theorem test_error_record : (Err.invalidRegister 0x0A).kind.code = 2 ∧
    (Err.invalidRegister 0x0A).value = 10 := by decide

/-- The trace a step leaves. -/
def traceAfter (image : List Byte) : Option Trace :=
  match step (load defaultSel image) with
  | .next t => t.trace
  | .fault _ => none
  | .refused _ => none

/-- spec/95_test_vectors.md section 4, P1's first step. -/
theorem test_trace : traceAfter [0x40, 0x02, 0x03, 0x20, 0x02] =
    some ⟨0x40, [0x02, 0x03], ⟨3, 0, 0, 0⟩, 3, false⟩ := by decide
theorem test_no_trace_of_error : traceAfter [0x10] = none := by decide
theorem test_start_up_without_image : startUp defaultSel none = .fault .imageLoadFailure := rfl
theorem test_start_up_bad_sel : startUp ⟨0x02, 0x04, 0x05⟩ (some []) = .refused .selectorsNotDistinct := rfl
theorem test_signed_min : s64 minWord = -9223372036854775808 := by decide
/-- A halted block has no step. -/
theorem test_halted_stops : step (raise (.outOfBounds 0) State.reset) = .fault (.halted (.outOfBounds 0)) := rfl
/-- withFetchWord on the reset state: MOV R0, 5 is the first instruction that runs. -/
theorem test_fetch_word : seen (step (State.reset.withFetchWord 24 0x050240)) =
    some (⟨5, 0, 0, 0⟩, 3, false, .running) := by decide

/-! ### Witnesses of the statements' hypotheses -/

/-- DecodeAndEncodeAgree, second clause: bytes that decode, with a byte to spare. -/
theorem test_witness_decodes : decode [0x10, 0x02, 0x99] = .ok (.incReg 0x02) := by decide
/-- UnsupportedOpcodesAreTheListedOnes, both clauses, at the ends of a range. -/
theorem test_witness_ranges : inUnsupportedRanges 0x02 = true ∧ inUnsupportedRanges 0x0F = true ∧
    inUnsupportedRanges 0xFF = true ∧ inUnsupportedRanges 0x01 = false ∧
    inUnsupportedRanges 0x10 = false ∧ inUnsupportedRanges 0x70 = false := by decide
/-- OpcodeByteFixesLength, a 2-byte and a 3-byte opcode. -/
theorem test_witness_schema : schemaOf 0x70 = some (.i .jzImm) ∧
    decode [0x70, 0x00] = .ok (.jzImm 0x00) ∧ schemaOf 0x00 = some (.ri .addRegImm) ∧
    decode [0x00, 0x02, 0x00] = .ok (.addRegImm 0x02 0x00) := ⟨rfl, rfl, rfl, rfl⟩
/-- SelectorResolution, one byte for each clause. -/
theorem test_witness_resolution : resolve defaultSel 0x02 = .ok .r0 ∧ resolve defaultSel 0x03 = .ok .r1 ∧
    resolve defaultSel 0x04 = .ok .r2 ∧ resolve defaultSel 0x05 = .ok .r3 ∧
    resolve defaultSel 0x01 = .error (.invalidRegister 0x01) ∧
    resolve defaultSel 0x06 = .error (.invalidRegister 0x06) := by decide
theorem test_witness_no_register : ∀ r, (0x06 : Byte) ≠ selByte defaultSel r := by
  intro r; cases r <;> decide
/-- SelectorMapIsFixedAndInjective, WriteStoresOneByte, LoadCopiesTheImage, OnlyCmpWritesFlag (first
clause), OnlyJzReadsFlag: a step that answers a next state, and fetches no CMP and no JZ. -/
theorem test_witness_step : step (load defaultSel [0x10, 0x02]) =
      .next { load defaultSel [0x10, 0x02] with
        gpr := ⟨1, 0, 0, 0⟩, pc := 2, trace := some ⟨0x10, [0x02], ⟨1, 0, 0, 0⟩, 2, false⟩ } ∧
    fetch (load defaultSel [0x10, 0x02]) = .ok (.incReg 0x02) ∧
    isCompare (.incReg 0x02) = false := ⟨rfl, rfl, rfl⟩
/-- ReadIsBoundsChecked and WriteStoresOneByte at the last address in bounds and the first beyond. -/
theorem test_witness_bounds : (imageMemory [0x07, 0x00]).wf = true ∧
    memRead (imageMemory [0x07, 0x00]) 1 = .ok 0x00 ∧
    memRead (imageMemory [0x07, 0x00]) 2 = .error (.outOfBounds 2) ∧
    memWrite (imageMemory [0x07, 0x00]) 1 0x09 = .ok (imageMemory [0x07, 0x09]) ∧
    memWrite (imageMemory [0x07, 0x00]) 0 0x00 = .ok (imageMemory [0x00, 0x00]) ∧
    memWrite (imageMemory [0x07, 0x00]) 2 0x09 = .error (.outOfBounds 2) := by decide
/-- LoadCopiesTheImage: an image beyond the bound, and the first index beyond a small one. -/
theorem test_witness_oversized : defaultSel.wf = true ∧
    (∃ image : List Byte, 2 ^ 64 - 3 < image.length) ∧
    ([0x07] : List Byte).length ≤ 1 ∧ 0 < ([0x07] : List Byte).length := by
  refine ⟨by decide, ⟨List.replicate (maxImageLen + 1) 0x00, ?_⟩, by decide, by decide⟩
  rw [List.length_replicate]
  decide
/-- StartUpSequence and LoadedBlockMeetsInvariant. -/
theorem test_witness_start_up : defaultSel.wf = true ∧ ([0x10, 0x02] : List Byte).length ≤ 2 ^ 64 - 3 ∧
    ([0x10, 0x02] : List Byte).length ≤ maxImageLen := by decide
/-- SignedReadingsWrap: both bounded clauses, at their bounds. -/
theorem test_witness_signed : s64 0x7FFFFFFFFFFFFF00 + (0xFF : Literal).toNat ≤ s64 maxWord ∧
    s64 minWord ≤ s64 0x80000000000000FF - (0xFF : Literal).toNat := by decide
/-- The instruction statements with one selector, with each corner case: the state resolves it. -/
theorem test_witness_one_selector : resolve (block [] maxWord minWord neg1Word 0 false).sel 0x02 = .ok .r0 ∧
    getReg (block [] maxWord minWord neg1Word 0 false) .r0 = maxWord ∧
    resolve (block [] maxWord minWord neg1Word 0 false).sel 0x03 = .ok .r1 ∧
    getReg (block [] maxWord minWord neg1Word 0 false) .r1 = minWord ∧
    resolve (block [] maxWord minWord neg1Word 0 false).sel 0x04 = .ok .r2 ∧
    getReg (block [] maxWord minWord neg1Word 0 false) .r2 = neg1Word ∧
    resolve (block [] maxWord minWord neg1Word 0 false).sel 0x05 = .ok .r3 ∧
    getReg (block [] maxWord minWord neg1Word 0 false) .r3 = 0 := by decide
/-- The instruction statements with two selectors and SameRegisterForms: both resolve, to two registers
and to one. -/
theorem test_witness_two_selectors : resolve (block [] 1 2 3 4 false).sel 0x02 = .ok .r0 ∧
    resolve (block [] 1 2 3 4 false).sel 0x05 = .ok .r3 := by decide

/-- TruncationOfTwo for each 2-byte opcode: it stands alone in memory. -/
theorem test_witness_truncation_two : ∀ op ∈ ([0x10, 0x20, 0x50, 0x70] : List Byte),
    (load defaultSel [op]).status = .running ∧
      memRead (load defaultSel [op]).mem (load defaultSel [op]).pc.toNat = .ok op ∧
      (load defaultSel [op]).mem.len ≤ (load defaultSel [op]).pc.toNat + 1 := by decide
/-- TruncationOfThree for each 3-byte opcode, both clauses. -/
theorem test_witness_truncation_three :
    ∀ op ∈ ([0x00, 0x01, 0x30, 0x31, 0x40, 0x41, 0x60, 0x61] : List Byte),
      memRead (load defaultSel [op]).mem 0 = .ok op ∧ (load defaultSel [op]).mem.len ≤ 0 + 1 ∧
      memRead (load defaultSel [op, 0x02]).mem 0 = .ok op ∧
      0 + 1 < (load defaultSel [op, 0x02]).mem.len ∧
      (load defaultSel [op, 0x02]).mem.len ≤ 0 + 2 := by decide

/-- The bytes of an image stand at pc after its load. -/
theorem holds_at_load (image : List Byte) : HoldsAtPc (load defaultSel image) image := by
  intro k h
  have hc := cellAt_imageCells 0 image k h
  simp only [Nat.zero_add] at hc
  rw [load_pc, load_mem, memRead_ok (by simpa [imageMemory] using h)]
  simpa [imageMemory] using hc

/-- RejectsSelector, RejectsSecondSelector and ErrorPriority's selector clauses: every form, loaded as
the image, with a selector no register has. -/
theorem test_witness_rejected_selector (i : Instr) :
    (load defaultSel (encode i)).status = .running ∧
      HoldsAtPc (load defaultSel (encode i)) (encode i) ∧
      (∀ r, (0x06 : Byte) ≠ selByte (load defaultSel (encode i)).sel r) ∧
      ∃ r, (0x02 : Byte) = selByte (load defaultSel (encode i)).sel r :=
  ⟨rfl, holds_at_load _, test_witness_no_register, .r0, rfl⟩
/-- ErrorPriority: the selector lists of its last two clauses. -/
theorem test_witness_selector_lists : selectorsOf (.incReg 0x06) = [0x06] ∧
    selectorsOf (.cmpRegReg 0x02 0x06) = [0x02, 0x06] := by decide
/-- JmpImmSetsPc and JzImmJumpsIfFlag: a running block with the target at L and the flag true, and one
with the flag false. -/
theorem test_witness_jump : (block [0x70, 0x02] 0 0 0 0 true).status = .running ∧
    (block [0x70, 0x02] 0 0 0 0 true).mem.len ≤ (0x02 : Literal).toNat ∧
    (block [0x70, 0x02] 0 0 0 0 true).zf = true ∧
    (block [0x70, 0x02] 0 0 0 0 false).zf = false := by decide
/-- JzFollowsCmp: both forms complete, with operands equal and unequal. -/
theorem test_witness_cmp : exec (.cmpRegImm 0x02 0x03) (block [] 3 3 4 0 false) =
      .next { block [] 3 3 4 0 true with pc := 3 } ∧
    exec (.cmpRegImm 0x02 0x04) (block [] 3 3 4 0 false) =
      .next { block [] 3 3 4 0 false with pc := 3 } ∧
    exec (.cmpRegReg 0x02 0x03) (block [] 3 3 4 0 false) =
      .next { block [] 3 3 4 0 true with pc := 3 } ∧
    exec (.cmpRegReg 0x02 0x04) (block [] 3 3 4 0 false) =
      .next { block [] 3 3 4 0 false with pc := 3 } := ⟨rfl, rfl, rfl, rfl⟩
/-- StepRunsDecodedInstruction. -/
theorem test_witness_bytes_at_pc : (load defaultSel [0x10, 0x02]).status = .running ∧
    HoldsAtPc (load defaultSel [0x10, 0x02]) [0x10, 0x02] ∧
    decode [0x10, 0x02] = .ok (.incReg 0x02) := ⟨rfl, holds_at_load _, rfl⟩
/-- PcAfterStep, PcNeverWraps, TraceAfterCompletedStep: a plain instruction, JMP, JZ taken and not. -/
theorem test_witness_completes :
    (∃ t, Completes (load defaultSel [0x10, 0x02]) (.incReg 0x02) t) ∧ isJump (.incReg 0x02) = false ∧
    (∃ t, Completes (load defaultSel [0x50, 0xFF]) (.jmpImm 0xFF) t) ∧
    (∃ t, Completes (block [0x70, 0xFF] 0 0 0 0 true) (.jzImm 0xFF) t) ∧
    (∃ t, Completes (block [0x70, 0xFF] 0 0 0 0 false) (.jzImm 0xFF) t) ∧
    (load defaultSel [0x10, 0x02]).mem.len ≤ 2 ^ 64 - 3 :=
  ⟨⟨_, rfl, rfl, rfl, rfl⟩, rfl, ⟨_, rfl, rfl, rfl, rfl⟩, ⟨_, rfl, rfl, rfl, rfl⟩,
    ⟨_, rfl, rfl, rfl, rfl⟩, by decide⟩
/-- OnlyCmpWritesFlag, second and third clauses. -/
theorem test_witness_cmp_completes :
    (∃ t, Completes (load defaultSel [0x60, 0x02, 0x00]) (.cmpRegImm 0x02 0x00) t) ∧
    (∃ t, Completes (load defaultSel [0x61, 0x02, 0x05]) (.cmpRegReg 0x02 0x05) t) :=
  ⟨⟨_, rfl, rfl, rfl, rfl⟩, ⟨_, rfl, rfl, rfl, rfl⟩⟩
/-- OnlyJzReadsFlag: the fetched instruction is no JZ. -/
theorem test_witness_no_jz : ∀ imm8, fetch (load defaultSel [0x10, 0x02]) ≠ .ok (.jzImm imm8) := by
  intro imm8 h
  have h' : Except.ok (Instr.incReg 0x02) = (Except.ok (.jzImm imm8) : Except Err Instr) := h
  injection h' with h'
  cases h'
/-- StepReadsOnlyItsInstruction: a longer memory that agrees at pc, pc + 1 and pc + 2. -/
theorem test_witness_other_memory : ∀ k, k ≤ 2 →
    memRead (imageMemory [0x10, 0x02, 0x00, 0x99]) (0 + k) =
      memRead (imageMemory [0x10, 0x02, 0x00]) (0 + k) := by decide
theorem test_witness_other_memory_step : ∃ t, step (load defaultSel [0x10, 0x02, 0x00]) = .next t :=
  ⟨_, rfl⟩
/-- OutOfBoundsInThreePlaces, InvalidRegisterCause, UnsupportedInstructionCause and ErrorEntryIsPrecise:
steps that halt with each record. -/
theorem test_witness_halts :
    HaltsWith (load defaultSel []) (.outOfBounds 0) ∧
    HaltsWith (load defaultSel [0x10]) (.outOfBounds 1) ∧
    HaltsWith (load defaultSel [0x00, 0x02]) (.outOfBounds 2) ∧
    HaltsWith (load defaultSel [0x10, 0x06]) (.invalidRegister 0x06) ∧
    HaltsWith (load defaultSel [0x99]) (.unsupportedInstruction 0x99) :=
  ⟨⟨_, rfl, rfl⟩, ⟨_, rfl, rfl⟩, ⟨_, rfl, rfl⟩, ⟨_, rfl, rfl⟩, ⟨_, rfl, rfl⟩⟩
/-- InvalidRegisterCause, second clause. -/
theorem test_witness_fetched_selector : fetch (load defaultSel [0x10, 0x06]) = .ok (.incReg 0x06) ∧
    0x06 ∈ selectorsOf (.incReg 0x06) := by decide
/-- ErrorPriority: an unsupported opcode byte in bounds, and supported ones of both lengths. -/
theorem test_witness_priority : memRead (load defaultSel [0x99]).mem 0 = .ok 0x99 ∧
    schemaOf 0x99 = none ∧ (schemaOf 0x10).map schemaLength = some 2 ∧
    (schemaOf 0x61).map schemaLength = some 3 := ⟨rfl, rfl, rfl, rfl⟩
/-- StepKeepsInvariant: a state that meets the invariant and steps, and one whose step halts it. -/
theorem test_witness_inv : (load defaultSel [0x10, 0x02]).Inv ∧
    (∃ t, step (load defaultSel [0x10, 0x02]) = .next t) ∧ (load defaultSel [0x10]).Inv ∧
    (∃ t, step (load defaultSel [0x10]) = .next t) := ⟨by decide, ⟨_, rfl⟩, by decide, ⟨_, rfl⟩⟩
/-- FetchWordIsFetched. -/
theorem test_witness_canonical : State.reset.mem.wf = true := by decide

end Sys2Proof.Tests
end

/-!
The statements about the block's state: first the facts they need about the selector map, the load,
a fetch that answers an instruction, pc and the flag, then the settled obligations.
-/

/-! ### The selector map (R23, R24) -/

namespace Sys2Proof

theorem SelMap.wf_iff_injective (m : SelMap) :
    m.wf = true ↔ Function.Injective (selByte m) := by
  have hwf : m.wf = true ↔ m.r1 ≠ selR0 ∧ m.r2 ≠ selR0 ∧ m.r3 ≠ selR0 ∧
      m.r1 ≠ m.r2 ∧ m.r1 ≠ m.r3 ∧ m.r2 ≠ m.r3 := by
    simp [SelMap.wf, and_assoc]
  rw [hwf]
  constructor
  · rintro ⟨h10, h20, h30, h12, h13, h23⟩ q r h
    cases q <;> cases r <;> grind [selByte]
  · intro hinj
    have hne {q r : Reg} (h : q ≠ r) : selByte m q ≠ selByte m r := hinj.ne h
    exact ⟨hne (q := .r1) (r := .r0) nofun, hne (q := .r2) (r := .r0) nofun,
      hne (q := .r3) (r := .r0) nofun, hne (q := .r1) (r := .r2) nofun,
      hne (q := .r1) (r := .r3) nofun, hne (q := .r2) (r := .r3) nofun⟩

end Sys2Proof

namespace Sys2Proof.Machine

/-- Under an injective SEL a register's own byte resolves to it: no other register has that byte. -/
theorem resolve_selByte {m : SelMap} (h : m.wf = true) (r : Reg) :
    resolve m (selByte m r) = .ok r := by
  rcases hr : resolve m (selByte m r) with e | q
  · exact absurd rfl ((resolve_eq_error hr).2 r)
  · rw [m.wf_iff_injective.mp h (resolve_eq_ok hr)]

/-! ### The load (R180) -/

theorem memRead_imageMemory {image : List Byte} {a : Nat} (h : a < image.length) :
    memRead (imageMemory image) a = .ok image[a] := by
  have hcell := cellAt_imageCells 0 image a h
  rw [Nat.zero_add] at hcell
  rw [memRead_ok h, imageMemory, hcell]

end Sys2Proof.Machine

/-! ### Encodings and the decoder (R61, R66) -/

namespace Sys2Proof

/-- The instructions a schema makes are encoded as the opcode byte and their operand bytes. -/
def Schema.EncodesWith (op : Byte) : Schema → Prop
  | .ri make | .rr make => ∀ b1 b2, encode (make b1 b2) = [op, b1, b2]
  | .r make | .i make => ∀ b1, encode (make b1) = [op, b1]

theorem schemaOf_encodesWith {op : Byte} {schema : Schema} (h : schemaOf op = some schema) :
    schema.EncodesWith op := by
  have table : ∀ row ∈ opcodeTable, row.2.EncodesWith row.1 := by
    simp [opcodeTable, Schema.EncodesWith, encode]
  exact table (op, schema) (schemaOf_mem h)

/-- The bytes a successful decode read are the encoding of what it answers. -/
theorem read_of_decodeFrom_ok {read : Nat → Except Err Byte} {i : Instr}
    (h : decodeFrom read = .ok i) (k : Nat) (hk : k < (encode i).length) :
    read k = .ok (encode i)[k] := by
  obtain ⟨op, schema, h0, hs, hread⟩ := decodeFrom_ok h
  have henc := schemaOf_encodesWith hs
  cases schema with
  | ri make | rr make =>
    obtain ⟨b1, b2, h1, h2, rfl⟩ := readTwo_ok hread
    simp only [henc b1 b2] at hk ⊢
    match k, hk with
    | 0, _ => exact h0
    | 1, _ => exact h1
    | 2, _ => exact h2
  | r make | i make =>
    obtain ⟨b1, h1, rfl⟩ := readOne_ok hread
    simp only [henc b1] at hk ⊢
    match k, hk with
    | 0, _ => exact h0
    | 1, _ => exact h1

theorem decode_encode (i : Instr) : decode (encode i) = .ok i := by cases i <;> rfl

theorem encode_length_bounds (i : Instr) : 2 ≤ (encode i).length ∧ (encode i).length ≤ 3 := by
  cases i <;> simp [encode]

/-- The selectors are operand bytes: the encoding holds each at index 1 or 2. -/
theorem exists_index_of_mem_selectorsOf {i : Instr} {b : Selector} (h : b ∈ selectorsOf i) :
    ∃ k, ∃ hk : k < (encode i).length, (k = 1 ∨ k = 2) ∧ (encode i)[k] = b := by
  have htail : b ∈ (encode i).tail := by
    cases i <;> simp_all [selectorsOf, encode]
  obtain ⟨k, hk, rfl⟩ := List.getElem_of_mem htail
  have hlen := (encode_length_bounds i).2
  rw [List.length_tail] at hk
  exact ⟨k + 1, by omega, by omega, by simp⟩

end Sys2Proof

/-! ### The fetch (R72) -/

namespace Sys2Proof.Machine

theorem holdsAtPc_of_fetch_ok {s : State} {i : Instr} (h : fetch s = .ok i) :
    HoldsAtPc s (encode i) := fun k hk => read_of_decodeFrom_ok h k hk

/-- A fetched instruction lies in memory whole. -/
theorem fetch_ok_in_bounds {s : State} {i : Instr} (h : fetch s = .ok i) :
    s.pc.toNat + (encode i).length ≤ s.mem.len := by
  have hlen := (encode_length_bounds i).1
  have := memRead_eq_ok (holdsAtPc_of_fetch_ok h ((encode i).length - 1) (by omega))
  omega

theorem memRead_of_fetched_selector {s : State} {i : Instr} {b : Selector} (h : fetch s = .ok i)
    (hb : b ∈ selectorsOf i) :
    memRead s.mem (s.pc.toNat + 1) = .ok b ∨ memRead s.mem (s.pc.toNat + 2) = .ok b := by
  obtain ⟨k, hk, hk12, rfl⟩ := exists_index_of_mem_selectorsOf hb
  have := holdsAtPc_of_fetch_ok h k hk
  rcases hk12 with rfl | rfl
  · exact .inl this
  · exact .inr this

/-! ### Completed steps -/

/-- A completed step committed the instruction's effect and handed over its snapshot. -/
theorem Completes.commits {s t : State} {i : Instr} (h : Completes s i t) :
    ∃ u, exec i s = .next u ∧ Commits i s u ∧ t = emitTrace i u := by
  obtain ⟨-, hf, hstep, hrun⟩ := h
  obtain ⟨-, ⟨e, -, rfl⟩ | ⟨j, b, -, hb⟩ | ⟨j, u, hj, hu, hc, rfl⟩⟩ := step_cases hstep
  · cases hrun
  · rw [hb.raised] at hrun
    cases hrun
  · obtain rfl : i = j := by rw [hf] at hj; injection hj
    exact ⟨u, hu, hc, rfl⟩

theorem pcAfter_cases (s : State) (i : Instr) :
    pcAfter s i = s.pc + BitVec.ofNat 64 (encode i).length ∨
      (isJump i = true ∧ ∃ imm8, pcAfter s i = jumpTarget imm8) := by
  cases i with
  | jmpImm imm8 => exact .inr ⟨rfl, imm8, rfl⟩
  | jzImm imm8 =>
    rcases hz : s.zf with _ | _
    · exact .inl (by simp [pcAfter, hz, encode])
    · exact .inr ⟨rfl, imm8, by simp [pcAfter, hz]⟩
  | _ => exact .inl rfl

/-- pc after a fetched instruction: the advance stays within L, so it does not wrap (R31). -/
theorem pcAfter_toNat {s : State} {i : Instr} (hL : s.mem.len ≤ maxImageLen)
    (hf : fetch s = .ok i) :
    ((pcAfter s i).toNat = s.pc.toNat + (encode i).length ∧ (pcAfter s i).toNat ≤ s.mem.len) ∨
      (isJump i = true ∧ (pcAfter s i).toNat ≤ 255) := by
  rcases pcAfter_cases s i with hpc | ⟨hj, imm8, hpc⟩
  · have hin := fetch_ok_in_bounds hf
    have hadd : (pcAfter s i).toNat = s.pc.toNat + (encode i).length := by
      simp only [hpc, BitVec.toNat_add, BitVec.toNat_ofNat, maxImageLen] at hL ⊢
      omega
    exact .inl ⟨hadd, by omega⟩
  · refine .inr ⟨hj, ?_⟩
    have := imm8.isLt
    rw [hpc, jumpTarget_toNat]
    omega

theorem step_sel {s t : State} (h : step s = .next t) : t.sel = s.sel := by
  obtain ⟨-, ⟨e, -, rfl⟩ | ⟨i, b, -, hb⟩ | ⟨i, u, -, -, hc, rfl⟩⟩ := step_cases h
  · rfl
  · rw [hb.raised, raise_sel]
  · rw [emitTrace_sel, hc.sel]

/-! ### The invariant (R31, R156, R162) -/

/-- Error entry keeps the invariant where the state shows the error. -/
theorem inv_raise {s : State} {e : Err} (h : s.Inv) (he : errorShown (raise e s) = true) :
    (raise e s).Inv := by
  obtain ⟨hwf, hlen, hsel, hpc, -, -⟩ := h
  exact ⟨hwf, hlen, hsel, hpc, he, rfl⟩

theorem errorShown_raise_fetch_error {s : State} {e : Err} (h : fetch s = .error e) :
    errorShown (raise e s) = true := by
  rcases fetch_error_cases h with ⟨hL, rfl⟩ | ⟨op, hop, ⟨hnone, rfl⟩ | ⟨schema, -, hmissing⟩⟩
  · simp [errorShown, hL]
  · simp [errorShown, hop, hnone]
  · rcases hmissing with ⟨hL, rfl⟩ | ⟨-, -, hL, rfl⟩ <;> simp [errorShown, hL]

theorem errorShown_raise_selector {s : State} {i : Instr} {b : Selector} (hf : fetch s = .ok i)
    (hb : b ∈ selectorsOf i) (hno : ∀ r, b ≠ selByte s.sel r) :
    errorShown (raise (.invalidRegister b) s) = true := by
  have hsel := isSelector_eq_false.mpr hno
  rcases memRead_of_fetched_selector hf hb with hread | hread <;> simp [errorShown, hsel, hread]

theorem snapshot_bytes (i : Instr) (s : State) :
    (snapshot i s).opcode :: (snapshot i s).operands = encode i := (encode_eq_cons i).symm

/-- The snapshot of a running block shows its state and an instruction's bytes (R162). -/
theorem traceCurrent_emitTrace {i : Instr} {s : State} (h : s.status = .running) :
    traceCurrent (emitTrace i s) = true := by
  rw [emitTrace_running s i h]
  simp only [traceCurrent, snapshot_bytes, decode_encode]
  simp [snapshot, h]

theorem inv_of_commits {s u : State} {i : Instr} (h : s.Inv) (hs : s.status = .running)
    (hf : fetch s = .ok i) (hc : Commits i s u) : (emitTrace i u).Inv := by
  obtain ⟨hwf, hlen, hsel, -, -, -⟩ := h
  have hrun : u.status = .running := hc.status.trans hs
  have hpc : u.pc.toNat ≤ max (s.mem.len + 2) 255 := by
    rw [hc.pc]
    rcases pcAfter_toNat hlen hf with ⟨-, hin⟩ | ⟨-, hjump⟩ <;> omega
  refine ⟨?_, ?_, ?_, ?_, ?_, traceCurrent_emitTrace hrun⟩
  · simpa [hc.mem] using hwf
  · simpa [hc.mem] using hlen
  · simpa [hc.sel] using hsel
  · simpa [pcInRange, hc.mem] using hpc
  · simp [errorShown, hrun]

/-! ### The zero flag (R32) -/

theorem withReg_zf {rs : Selector} {s t : State} {effect : Reg → State}
    (heff : ∀ r, (effect r).zf = s.zf) (h : withReg rs s effect = .next t) : t.zf = s.zf := by
  rcases withReg_cases h with ⟨rfl, -⟩ | ⟨r, -, rfl⟩
  · rfl
  · exact heff r

theorem withRegs_zf {rd rs2 : Selector} {s t : State} {effect : Reg → Reg → State}
    (heff : ∀ d q, (effect d q).zf = s.zf) (h : withRegs rd rs2 s effect = .next t) :
    t.zf = s.zf := by
  rcases withRegs_cases h with ⟨rfl, -⟩ | ⟨rfl, -⟩ | ⟨d, q, -, -, rfl⟩
  · rfl
  · rfl
  · exact heff d q

theorem exec_zf_of_not_compare {i : Instr} {s t : State} (hi : isCompare i = false)
    (h : exec i s = .next t) : t.zf = s.zf := by
  cases i with
  | addRegImm | subRegImm | movRegImm | incReg | decReg => exact withReg_zf (by simp) h
  | addRegReg | subRegReg | movRegReg => exact withRegs_zf (by simp) h
  | cmpRegImm | cmpRegReg => cases hi
  | jmpImm imm8 => cases h; rfl
  | jzImm imm8 => cases h; split <;> rfl

/-- The states agree in all that a step other than JZ's reads and all it writes but the flag and the
trace. -/
structure AgreeButFlag (s t : State) : Prop where
  gpr : t.gpr = s.gpr
  pc : t.pc = s.pc
  mem : t.mem = s.mem
  status : t.status = s.status
  sel : t.sel = s.sel

namespace AgreeButFlag

variable {s t : State}

theorem getReg (h : AgreeButFlag s t) (r : Reg) : getReg t r = getReg s r := by
  cases r <;> simp [Machine.getReg, h.gpr]

theorem setReg (h : AgreeButFlag s t) (r : Reg) (v : Word) :
    AgreeButFlag (setReg r v s) (setReg r v t) := by
  refine ⟨?_, by simp [h.pc], by simp [h.mem], by simp [h.status], by simp [h.sel]⟩
  cases r <;> simp [Machine.setReg, h.gpr]

theorem advance (h : AgreeButFlag s t) (n : Nat) : AgreeButFlag (advance n s) (advance n t) :=
  ⟨h.gpr, by simp [h.pc], h.mem, h.status, h.sel⟩

theorem setPc (h : AgreeButFlag s t) (v : Word) : AgreeButFlag (setPc v s) (setPc v t) :=
  ⟨h.gpr, rfl, h.mem, h.status, h.sel⟩

theorem setZf (h : AgreeButFlag s t) (c d : Bool) : AgreeButFlag (setZf c s) (setZf d t) :=
  ⟨h.gpr, h.pc, h.mem, h.status, h.sel⟩

theorem raise (h : AgreeButFlag s t) (e : Err) : AgreeButFlag (raise e s) (raise e t) :=
  ⟨h.gpr, h.pc, h.mem, rfl, h.sel⟩

theorem emitTrace (h : AgreeButFlag s t) (i : Instr) :
    AgreeButFlag (emitTrace i s) (emitTrace i t) :=
  ⟨by simp [h.gpr], by simp [h.pc], by simp [h.mem], by simp [h.status], by simp [h.sel]⟩

theorem fetch (h : AgreeButFlag s t) : fetch t = fetch s := by
  have : fetchByte t = fetchByte s := by funext k; simp [fetchByte, h.mem, h.pc]
  rw [Machine.fetch, Machine.fetch, this]

theorem withReg (h : AgreeButFlag s t) {rs : Selector} {s' : State} {effect effect' : Reg → State}
    (heff : ∀ r, AgreeButFlag (effect r) (effect' r)) (hs : withReg rs s effect = .next s') :
    ∃ t', withReg rs t effect' = .next t' ∧ AgreeButFlag s' t' := by
  simp only [Machine.withReg, h.sel] at hs ⊢
  split at hs <;> cases hs
  · exact ⟨_, rfl, h.raise _⟩
  · exact ⟨_, rfl, heff _⟩

theorem withRegs (h : AgreeButFlag s t) {rd rs2 : Selector} {s' : State}
    {effect effect' : Reg → Reg → State} (heff : ∀ d q, AgreeButFlag (effect d q) (effect' d q))
    (hs : withRegs rd rs2 s effect = .next s') :
    ∃ t', withRegs rd rs2 t effect' = .next t' ∧ AgreeButFlag s' t' := by
  simp only [Machine.withRegs, h.sel] at hs ⊢
  split at hs
  · cases hs; exact ⟨_, rfl, h.raise _⟩
  · split at hs <;> cases hs
    · exact ⟨_, rfl, h.raise _⟩
    · exact ⟨_, rfl, heff _ _⟩

/-- No instruction but JZ looks at the flag. -/
theorem exec (h : AgreeButFlag s t) {i : Instr} {s' : State} (hi : ∀ imm8, i ≠ .jzImm imm8)
    (hs : exec i s = .next s') : ∃ t', exec i t = .next t' ∧ AgreeButFlag s' t' := by
  cases i with
  | jzImm imm8 => exact absurd rfl (hi imm8)
  | jmpImm imm8 => cases hs; exact ⟨_, rfl, h.setPc _⟩
  | addRegImm | subRegImm | movRegImm | incReg | decReg =>
    exact h.withReg (fun r => by simpa only [h.getReg] using (h.setReg r _).advance _) hs
  | addRegReg | subRegReg | movRegReg =>
    exact h.withRegs (fun d q => by simpa only [h.getReg] using (h.setReg d _).advance _) hs
  | cmpRegImm => exact h.withReg (fun r => (h.setZf _ _).advance _) hs
  | cmpRegReg => exact h.withRegs (fun d q => (h.setZf _ _).advance _) hs

theorem step (h : AgreeButFlag s t) {s' : State} (hjz : ∀ imm8, Machine.fetch s ≠ .ok (.jzImm imm8))
    (hs : step s = .next s') : ∃ t', step t = .next t' ∧ AgreeButFlag s' t' := by
  obtain ⟨hrun, -⟩ := step_cases hs
  have hrun' : t.status = .running := h.status.trans hrun
  rcases hf : Machine.fetch s with e | i
  · rw [step_fetch_error hrun hf] at hs
    cases hs
    exact ⟨_, step_fetch_error hrun' (h.fetch.trans hf), h.raise e⟩
  · obtain ⟨u, hu⟩ := exec_next i s
    obtain ⟨u', hu', hagree⟩ := h.exec (fun imm8 hi => hjz imm8 (by rw [hf, hi])) hu
    rw [step_fetch_ok hrun hf, hu] at hs
    cases hs
    exact ⟨_, by rw [step_fetch_ok hrun' (h.fetch.trans hf), hu']; rfl, hagree.emitTrace i⟩

end AgreeButFlag

/-! ### The settled statements -/

/-- Settles O42: the three outcomes of a step are an error of the fetch, an invalid selector, and a
committed instruction. -/
theorem stepKeepsInvariant : Obligations.StepKeepsInvariant := by
  intro s t hinv hstep
  obtain ⟨hrun, ⟨e, hf, rfl⟩ | ⟨i, b, hf, hb⟩ | ⟨i, u, hf, -, hc, rfl⟩⟩ := step_cases hstep
  · exact inv_raise hinv (errorShown_raise_fetch_error hf)
  · obtain ⟨hmem, hno, rfl⟩ := hb
    exact inv_raise hinv (errorShown_raise_selector hf hmem hno)
  · exact inv_of_commits hinv hrun hf hc

/-- Settles O6: no outcome of a step writes SEL. -/
theorem selectorMapIsFixedAndInjective : Obligations.SelectorMapIsFixedAndInjective :=
  ⟨fun _ => rfl, SelMap.wf_iff_injective, fun _ _ => step_sel⟩

/-- Settles O30: an advance ends within L, a jump within its literal. -/
theorem pcNeverWraps : Obligations.PcNeverWraps := by
  intro s i t hL hcomp
  obtain ⟨u, -, hc, rfl⟩ := hcomp.commits
  obtain ⟨-, hf, -, -⟩ := hcomp
  rw [emitTrace_pc, hc.pc]
  exact (pcAfter_toNat hL hf).imp_left fun ⟨hadd, hin⟩ => ⟨hadd, by omega⟩

/-- Settles O31: an error keeps the flag, and so does every commit but a CMP's. -/
theorem onlyCmpWritesFlag : Obligations.OnlyCmpWritesFlag := by
  refine ⟨fun s t hstep hcmp => ?_, fun s t rs imm8 hcomp => ?_, fun s t rd rs2 hcomp => ?_⟩
  · obtain ⟨-, ⟨e, -, rfl⟩ | ⟨i, b, -, hb⟩ | ⟨i, u, hf, hu, -, rfl⟩⟩ := step_cases hstep
    · rfl
    · rw [hb.raised, raise_zf]
    · rw [emitTrace_zf, exec_zf_of_not_compare (hcmp i hf) hu]
  · obtain ⟨u, hu, hc, rfl⟩ := hcomp.commits
    obtain ⟨r, hr⟩ := hc.selectors rs (by simp [selectorsOf])
    obtain rfl := Host.Outcome.next.inj ((withReg_ok _ hr).symm.trans hu)
    refine ⟨r, resolve_eq_ok hr, ?_⟩
    simpa using eq64_eq_decide (by simp [← BitVec.toNat_inj])
  · obtain ⟨u, hu, hc, rfl⟩ := hcomp.commits
    obtain ⟨d, hd⟩ := hc.selectors rd (by simp [selectorsOf])
    obtain ⟨q, hq⟩ := hc.selectors rs2 (by simp [selectorsOf])
    obtain rfl := Host.Outcome.next.inj ((withRegs_ok _ hd hq).symm.trans hu)
    refine ⟨d, q, resolve_eq_ok hd, resolve_eq_ok hq, ?_⟩
    simpa using eq64_eq_decide Iff.rfl

/-- Settles O32: the block with the other flag agrees with it in all else, and the step keeps that. -/
theorem onlyJzReadsFlag : Obligations.OnlyJzReadsFlag := by
  intro s t c hstep hjz
  have hagree : AgreeButFlag s (setZf c s) := ⟨rfl, rfl, rfl, rfl, rfl⟩
  obtain ⟨u, hu, hgpr, hpc, hmem, hstatus, hsel⟩ := hagree.step hjz hstep
  exact ⟨u, hu, hgpr, hpc, hmem, hstatus, hsel⟩

/-- Settles O5, along the chain of comparisons of R24. -/
theorem selectorResolution : Obligations.SelectorResolution := by
  intro m b
  refine ⟨fun h0 => ?_, fun h0 h1 => ?_, fun h0 h1 h2 => ?_, fun h0 h1 h2 h3 => ?_,
    resolve_of_no_register, resolve_selByte⟩
  · exact if_pos h0
  · rw [resolve, if_neg h0, if_pos h1]
  · rw [resolve, if_neg h0, if_neg h1, if_pos h2]
  · rw [resolve, if_neg h0, if_neg h1, if_neg h2, if_pos h3]

/-- Settles O10: the tabled values of R37, and the image's bytes in memory. -/
theorem resetLeavesTheTabledValues : Obligations.ResetLeavesTheTabledValues := fun m image =>
  ⟨fun r => getReg_load r m image, load_pc m image, load_zf m image, load_status m image, rfl,
    fun _ => memRead_imageMemory⟩

end Sys2Proof.Machine

/-!
The statements about memory: first what a write does to reads, that no step writes memory, and that
a step commutes with a change of memory its fetch does not see; then the settled obligations.
-/

namespace Sys2Proof.Machine

/-! ### The write primitive (R44) -/

theorem memWrite_error {m : Memory} {a : Nat} (v : Byte) (h : m.len ≤ a) :
    memWrite m a v = .error (.outOfBounds a) := if_neg (Nat.not_lt.mpr h)

theorem memWrite_ok {m : Memory} {a : Nat} (v : Byte) (h : a < m.len) :
    memWrite m a v = .ok { m with cells := setCell m.cells a v } := if_pos h

theorem memWrite_len {m n : Memory} {a : Nat} {v : Byte} (hw : memWrite m a v = .ok n) :
    n.len = m.len := by
  unfold memWrite at hw
  split at hw <;> cases hw
  rfl

/-- Read after write: the byte written, and every other read as before. -/
theorem memRead_of_memWrite {m n : Memory} {a : Nat} {v : Byte} (hwf : m.wf = true)
    (hw : memWrite m a v = .ok n) (b : Nat) :
    memRead n b = if b = a then .ok v else memRead m b := by
  obtain ⟨hrise, -⟩ := m.wf_iff.mp hwf
  unfold memWrite at hw
  split at hw <;> cases hw
  next ha =>
    simp only [memRead, cellAt_setCell a v b hrise]
    by_cases hb : b = a
    · subst hb; simp [ha]
    · simp [hb]

/-! ### What a step does with memory (R45) -/

/-- Every outcome of a step leaves memory alone. -/
theorem step_mem {s t : State} (h : step s = .next t) : t.mem = s.mem := by
  obtain ⟨-, ⟨e, -, rfl⟩ | ⟨i, b, -, hb⟩ | ⟨i, u, -, -, hc, rfl⟩⟩ := step_cases h
  · rfl
  · rw [hb.raised, raise_mem]
  · rw [emitTrace_mem, hc.mem]

theorem SameMemory.of_eq {s t : State} (h : t.mem = s.mem) : SameMemory s t :=
  ⟨congrArg Memory.len h, fun a => congrArg (memRead · a) h⟩

/-- A fetch looks at memory only where an instruction at pc can lie. -/
theorem fetch_change_mem {s : State} {other : Memory}
    (h : ∀ k, k ≤ 2 → memRead other (s.pc.toNat + k) = memRead s.mem (s.pc.toNat + k)) :
    fetch { s with mem := other } = fetch s :=
  decodeFrom_congr (h 0 (by decide)) (h 1 (by decide)) (h 2 (by decide))

theorem emitTrace_change_mem (i : Instr) (s : State) (other : Memory) :
    emitTrace i { s with mem := other } = { emitTrace i s with mem := other } := by
  obtain ⟨mem, gpr, pc, zf, status, trace, sel⟩ := s
  cases status <;> rfl

/-- A step commutes with a change of memory that its fetch does not see. -/
theorem step_change_mem {s t : State} {other : Memory}
    (hfetch : fetch { s with mem := other } = fetch s) (h : step s = .next t) :
    step { s with mem := other } = .next { t with mem := other } := by
  obtain ⟨hrun, -⟩ := step_cases h
  have hrun' : { s with mem := other }.status = .running := hrun
  rcases hf : fetch s with e | i
  · rw [step_fetch_error hrun hf] at h
    cases h
    exact step_fetch_error hrun' (hfetch.trans hf)
  · obtain ⟨u, hu⟩ := exec_next i s
    rw [step_fetch_ok hrun hf, hu] at h
    cases h
    rw [step_fetch_ok hrun' (hfetch.trans hf), exec_change_mem, hu]
    exact congrArg Host.Outcome.next (emitTrace_change_mem i u other)

/-! ### The settled statements -/

/-- Settles O8: reads after the write by `memRead_of_memWrite`; no step's outcome writes memory. -/
theorem writeStoresOneByte : Obligations.WriteStoresOneByte := by
  refine ⟨fun m a v hwf => ⟨memWrite_error v, fun ha => ?_⟩, fun s t h => .of_eq (step_mem h)⟩
  have hw := memWrite_ok v ha
  have hread := memRead_of_memWrite hwf hw
  exact ⟨_, hw, memWrite_len hw, by rw [hread, if_pos rfl], fun b hb => by rw [hread, if_neg hb]⟩

/-- Settles O33: the other memory gives the same fetch, and after the fetch a step reads none. -/
theorem stepReadsOnlyItsInstruction : Obligations.StepReadsOnlyItsInstruction := by
  intro s t other hagree hstep
  exact step_change_mem (fetch_change_mem hagree) hstep

/-- Settles O7: the two branches of the bounds check of R43. -/
theorem readIsBoundsChecked : Obligations.ReadIsBoundsChecked := fun _ _ =>
  ⟨memRead_ok, memRead_error⟩

end Sys2Proof.Machine

/-!
The statements about the encoding: first that a decode depends only on the bytes it reads and that
these are the encoding of its answer, what an opcode byte with or without a schema decodes to, and
which bytes have none; then the settled obligations.
-/

namespace Sys2Proof

/-! ### Decoding what is encoded (R61, R66) -/

/-- A decode keeps its answer under any reader that answers the same where the first one answered a
byte: whatever lies beyond the bytes it read does not matter. -/
theorem decodeFrom_mono {f g : Nat → Except Err Byte} {i : Instr} (h : decodeFrom f = .ok i)
    (hfg : ∀ k b, f k = .ok b → g k = .ok b) : decodeFrom g = .ok i := by
  obtain ⟨op, schema, h0, hs, hread⟩ := decodeFrom_ok h
  cases schema with
  | ri make | rr make =>
    obtain ⟨b1, b2, h1, h2, rfl⟩ := readTwo_ok hread
    simp [decodeFrom, readOperands, readTwo, hfg _ _ h0, hs, hfg _ _ h1, hfg _ _ h2]
  | r make | i make =>
    obtain ⟨b1, h1, rfl⟩ := readOne_ok hread
    simp [decodeFrom, readOperands, readOne, hfg _ _ h0, hs, hfg _ _ h1]

theorem byteAt_eq_ok {bytes : List Byte} {k : Nat} {b : Byte} :
    byteAt bytes k = .ok b ↔ bytes[k]? = some b :=
  ⟨byteAt_ok, fun h => by simp [byteAt, h]⟩

theorem decode_append {bytes : List Byte} {i : Instr} (h : decode bytes = .ok i)
    (rest : List Byte) : decode (bytes ++ rest) = .ok i := by
  refine decodeFrom_mono h fun k b hk => ?_
  rw [byteAt_eq_ok] at hk ⊢
  obtain ⟨hlt, -⟩ := List.getElem?_eq_some_iff.mp hk
  rw [List.getElem?_append_left hlt, hk]

theorem encode_prefix_of_decode {bytes : List Byte} {i : Instr} (h : decode bytes = .ok i) :
    encode i <+: bytes :=
  List.prefix_iff_getElem?.mpr fun k hk => byteAt_ok (read_of_decodeFrom_ok h k hk)

theorem encode_length (i : Instr) : (encode i).length = instrLength i := by cases i <;> rfl

/-- The opcode byte of a successful decode selects the schema that made its answer (R69). -/
theorem encode_length_of_decodeFrom {read : Nat → Except Err Byte} {op : Byte} {schema : Schema}
    {i : Instr} (hop : read 0 = .ok op) (hs : schemaOf op = some schema)
    (h : decodeFrom read = .ok i) : (encode i).length = schemaLength schema := by
  simp only [decodeFrom, hop, hs] at h
  have henc := schemaOf_encodesWith hs
  cases schema with
  | ri make | rr make =>
    obtain ⟨b1, b2, -, -, rfl⟩ := readTwo_ok h
    rw [henc b1 b2]; rfl
  | r make | i make =>
    obtain ⟨b1, -, rfl⟩ := readOne_ok h
    rw [henc b1]; rfl

/-! ### The answer by the opcode's schema (R67, R68) -/

/-- No operand byte is read for an opcode without a schema. -/
theorem decode_unsupported {op : Byte} (h : schemaOf op = none) (rest : List Byte) :
    decode (op :: rest) = .error (.unsupportedInstruction op) := by
  simp [decode, decodeFrom, byteAt, h]

/-- Two operand bytes are enough for every schema. -/
theorem decode_supported {op : Byte} {schema : Schema} (h : schemaOf op = some schema)
    (b1 b2 : Byte) : ∃ i, decode [op, b1, b2] = .ok i := by
  cases schema with
  | ri make | rr make =>
    exact ⟨make b1 b2, by simp [decode, decodeFrom, byteAt, h, readOperands, readTwo]⟩
  | r make | i make =>
    exact ⟨make b1, by simp [decode, decodeFrom, byteAt, h, readOperands, readOne]⟩

end Sys2Proof

namespace Sys2Proof.Machine

/-! ### The unsupported opcode bytes (R68) -/

/-- The bytes of no row of the opcode map are those of the eight ranges. -/
theorem schemaOf_eq_none_iff (op : Byte) :
    schemaOf op = none ↔ inUnsupportedRanges op.toNat = true := by
  rw [schemaOf, List.lookup_eq_none_iff]
  simp only [opcodeTable, inUnsupportedRanges, List.forall_mem_cons, List.not_mem_nil,
    IsEmpty.forall_iff, implies_true, and_true, bne_iff_ne, ne_eq, ← BitVec.toNat_inj,
    BitVec.ofNat_eq_ofNat, BitVec.toNat_ofNat, Bool.or_eq_true, decide_eq_true_eq]
  omega

/-! ### The step on bytes that decode (R72, R74) -/

theorem fetch_of_holdsAtPc {s : State} {bytes : List Byte} {i : Instr} (hat : HoldsAtPc s bytes)
    (h : decode bytes = .ok i) : fetch s = .ok i := by
  refine decodeFrom_mono h fun k b hk => ?_
  obtain ⟨hlt, rfl⟩ := List.getElem?_eq_some_iff.mp (byteAt_ok hk)
  exact hat k hlt

theorem Completes.pc {s t : State} {i : Instr} (h : Completes s i t) : t.pc = pcAfter s i := by
  obtain ⟨u, -, hc, rfl⟩ := h.commits
  rw [emitTrace_pc, hc.pc]

/-! ### The settled statements -/

/-- Settles O1: the encoding alone decodes, and a decode ignores what follows the bytes it reads;
those bytes are the encoding. -/
theorem decodeAndEncodeAgree : Obligations.DecodeAndEncodeAgree := by
  refine ⟨fun i rest => decode_append (decode_encode i) rest, fun bytes i h => ?_⟩
  rw [← encode_length]
  exact (List.prefix_iff_eq_append.mp (encode_prefix_of_decode h)).symm

/-- Settles O3: the ranges are the bytes without a schema, which fail before any operand byte. -/
theorem unsupportedOpcodesAreTheListedOnes : Obligations.UnsupportedOpcodesAreTheListedOnes := by
  refine ⟨fun op h => decode_unsupported ((schemaOf_eq_none_iff op).mpr h),
    fun op h b1 b2 => ?_, by decide +kernel⟩
  rcases hs : schemaOf op with _ | schema
  · rw [(schemaOf_eq_none_iff op).mp hs] at h
    cases h
  · exact decode_supported hs b1 b2

/-- Settles O4: the schema of the opcode byte made the instruction. -/
theorem opcodeByteFixesLength : Obligations.OpcodeByteFixesLength := by
  intro op schema hs operands i h
  have hlen := encode_length_of_decodeFrom rfl hs h
  cases schema <;> exact hlen

/-- Settles O29: a completed step leaves pc at `pcAfter`, an advance or a jump's literal. -/
theorem pcAfterStep : Obligations.PcAfterStep := by
  intro s i t hcomp
  rw [hcomp.pc]
  refine ⟨fun hj => ?_, ?_, ?_, ?_⟩
  · exact (pcAfter_cases s i).resolve_right fun ⟨hjump, _⟩ => by simp [hj] at hjump
  · rintro imm8 rfl
    exact jumpTarget_toNat imm8
  · rintro imm8 rfl hz
    simp [pcAfter, hz]
  · rintro imm8 rfl hz
    simp [pcAfter, hz, encode]

/-- Settles O28: the fetch answers what the bytes at pc decode to. -/
theorem stepRunsDecodedInstruction : Obligations.StepRunsDecodedInstruction := by
  intro s bytes i hrun hat h
  rw [step_fetch_ok hrun (fetch_of_holdsAtPc hat h)]
  cases exec i s <;> rfl

end Sys2Proof.Machine

/-!
The statements about arithmetic: first the ALU as numbers and signed readings, the one- and
two-selector forms that write a register, a missing operand byte, and an invalid selector; then the
settled obligations.
-/

namespace Sys2Proof.Machine

/-! ### The ALU (R100, R108) -/

theorem add64_toNat (a b : Word) : (add64 a b).toNat = (a.toNat + b.toNat) % 2 ^ 64 :=
  BitVec.toNat_add a b

theorem sub64_toNat (a b : Word) :
    ((sub64 a b).toNat : Int) = ((a.toNat : Int) - (b.toNat : Int)) % 2 ^ 64 := by
  have := b.isLt
  rw [sub64, BitVec.toNat_sub]
  omega

theorem eq64_iff_toNat_eq (a b : Word) : eq64 a b = true ↔ a.toNat = b.toNat :=
  beq_iff_eq.trans BitVec.toNat_inj.symm

theorem s64_eq_toInt (v : Word) : s64 v = v.toInt := by
  rw [s64, BitVec.toInt_eq_toNat_cond]
  split <;> split <;> omega

theorem s64_add64 (a b : Word) : s64 (add64 a b) = Int.bmod (s64 a + s64 b) (2 ^ 64) := by
  simp only [s64_eq_toInt]
  exact BitVec.toInt_add a b

theorem s64_sub64 (a b : Word) : s64 (sub64 a b) = Int.bmod (s64 a - s64 b) (2 ^ 64) := by
  simp only [s64_eq_toInt]
  exact BitVec.toInt_sub

theorem s64_minWord : s64 minWord = -2 ^ 63 := rfl

theorem s64_maxWord : s64 maxWord = 2 ^ 63 - 1 := rfl

theorem s64_bounds (v : Word) : s64 minWord ≤ s64 v ∧ s64 v ≤ s64 maxWord := by
  have := v.isLt
  rw [s64_minWord, s64_maxWord, s64]
  split <;> omega

/-- A widened literal reads as nonnegative (R63). -/
theorem s64_zext64 (imm8 : Literal) : s64 (zext64 imm8) = imm8.toNat := by
  have := imm8.isLt
  rw [s64, zext64_toNat, if_pos (by omega)]

/-- Inside the bounds of the signed readings nothing is wrapped. -/
theorem bmod_eq_self_of_bounds {x : Int} (hlo : s64 minWord ≤ x) (hhi : x ≤ s64 maxWord) :
    Int.bmod x (2 ^ 64) = x := by
  rw [s64_minWord] at hlo
  rw [s64_maxWord] at hhi
  exact Int.bmod_eq_of_le (by omega) (by omega)

/-! ### Instructions that write one register (R101) -/

/-- Writing a register and advancing changes nothing else. -/
theorem onlyRegister_advance_setReg (n : Nat) (r : Reg) (v : Word) (s : State) :
    OnlyRegister r s (advance n (setReg r v s)) :=
  ⟨fun q hq => by rw [getReg_advance, getReg_setReg_other s r v q hq], by simp,
    SameMemory.of_eq (by simp), by simp, by simp, by simp⟩

/-- The one-selector form that writes `value` to its register and advances by `n`. -/
theorem withReg_writes {rs : Selector} {s : State} {r : Reg} (n : Nat) (value : Reg → Word)
    (h : resolve s.sel rs = .ok r) :
    ∃ t, withReg rs s (fun r => advance n (setReg r (value r) s)) = .next t ∧
      getReg t r = value r ∧ t.pc = s.pc + BitVec.ofNat 64 n ∧ OnlyRegister r s t :=
  ⟨_, withReg_ok _ h, by simp, by simp, onlyRegister_advance_setReg n r _ s⟩

/-- The two-selector form that writes `value` to its first register and advances by `n`. -/
theorem withRegs_writes {rd rs2 : Selector} {s : State} {d q : Reg} (n : Nat)
    (value : Reg → Reg → Word) (hd : resolve s.sel rd = .ok d) (hq : resolve s.sel rs2 = .ok q) :
    ∃ t, withRegs rd rs2 s (fun d q => advance n (setReg d (value d q) s)) = .next t ∧
      getReg t d = value d q ∧ t.pc = s.pc + BitVec.ofNat 64 n ∧ OnlyRegister d s t :=
  ⟨_, withRegs_ok _ hd hq, by simp, by simp, onlyRegister_advance_setReg n d _ s⟩

/-! ### A missing operand byte (R151) -/

theorem haltsWith_of_fetch_error {s : State} {e : Err} (hs : s.status = .running)
    (hf : fetch s = .error e) : HaltsWith s e := ⟨_, step_fetch_error hs hf, rfl⟩

/-- The fetch of a supported opcode goes on with the operand bytes of its schema. -/
theorem fetch_of_schema {s : State} {op : Byte} {schema : Schema}
    (hop : memRead s.mem s.pc.toNat = .ok op) (hschema : schemaOf op = some schema) :
    fetch s = readOperands (fetchByte s) schema := by
  have h0 : fetchByte s 0 = .ok op := hop
  simp only [fetch, decodeFrom, h0, hschema]

theorem readOperands_error_first {read : Nat → Except Err Byte} {e : Err} (schema : Schema)
    (h1 : read 1 = .error e) : readOperands read schema = .error e := by
  cases schema with
  | ri make | rr make => simp only [readOperands, readTwo, h1]
  | r make | i make => simp only [readOperands, readOne, h1]

theorem readOperands_error_second {read : Nat → Except Err Byte} {schema : Schema} {b1 : Byte}
    {e : Err} (hlen : schemaLength schema = 3) (h1 : read 1 = .ok b1) (h2 : read 2 = .error e) :
    readOperands read schema = .error e := by
  cases schema with
  | ri make | rr make => simp only [readOperands, readTwo, h1, h2]
  | r make | i make => cases hlen

theorem haltsWith_of_first_operand_missing {s : State} {op : Byte} {schema : Schema}
    (hs : s.status = .running) (hop : memRead s.mem s.pc.toNat = .ok op)
    (hschema : schemaOf op = some schema) (hL : s.mem.len ≤ s.pc.toNat + 1) :
    HaltsWith s (.outOfBounds (s.pc.toNat + 1)) :=
  haltsWith_of_fetch_error hs <|
    (fetch_of_schema hop hschema).trans (readOperands_error_first schema (memRead_error hL))

theorem haltsWith_of_second_operand_missing {s : State} {op : Byte} {schema : Schema}
    (hs : s.status = .running) (hop : memRead s.mem s.pc.toNat = .ok op)
    (hschema : schemaOf op = some schema) (hlen : schemaLength schema = 3)
    (hin : s.pc.toNat + 1 < s.mem.len) (hL : s.mem.len ≤ s.pc.toNat + 2) :
    HaltsWith s (.outOfBounds (s.pc.toNat + 2)) :=
  haltsWith_of_fetch_error hs <| (fetch_of_schema hop hschema).trans
    (readOperands_error_second hlen (memRead_ok hin) (memRead_error hL))

theorem truncationOfTwo {op : Byte} {schema : Schema} (hschema : schemaOf op = some schema) :
    TruncationOfTwo op := fun _ hs hop hL => haltsWith_of_first_operand_missing hs hop hschema hL

theorem truncationOfThree {op : Byte} {schema : Schema} (hschema : schemaOf op = some schema)
    (hlen : schemaLength schema = 3) : TruncationOfThree op := fun _ hs hop =>
  ⟨haltsWith_of_first_operand_missing hs hop hschema,
    haltsWith_of_second_operand_missing hs hop hschema hlen⟩

/-! ### An invalid selector (R152, R155) -/

theorem exec_error_first {i : Instr} {s : State} {b : Selector} {rest : List Selector} {e : Err}
    (hi : selectorsOf i = b :: rest) (h : resolve s.sel b = .error e) :
    exec i s = .next (raise e s) := by
  cases i with
  | jmpImm | jzImm => cases hi
  | addRegImm | subRegImm | movRegImm | cmpRegImm | incReg | decReg =>
    cases hi; exact withReg_error _ h
  | addRegReg | subRegReg | movRegReg | cmpRegReg => cases hi; exact withRegs_error_first _ h

theorem exec_error_second {i : Instr} {s : State} {b c : Selector} {d : Reg} {e : Err}
    (hi : selectorsOf i = [b, c]) (hb : resolve s.sel b = .ok d) (hc : resolve s.sel c = .error e) :
    exec i s = .next (raise e s) := by
  cases i with
  | jmpImm | jzImm | addRegImm | subRegImm | movRegImm | cmpRegImm | incReg | decReg => cases hi
  | addRegReg | subRegReg | movRegReg | cmpRegReg => cases hi; exact withRegs_error_second _ hb hc

/-- Some register answers to a selector byte of SEL, also where SEL is not injective. -/
theorem exists_resolve_of_register {m : SelMap} {b : Selector} (h : ∃ r, b = selByte m r) :
    ∃ d, resolve m b = .ok d := by
  rcases hr : resolve m b with e | d
  · obtain ⟨r, rfl⟩ := h
    exact absurd rfl ((resolve_eq_error hr).2 r)
  · exact ⟨d, rfl⟩

theorem haltsWith_of_exec_raise {s : State} {i : Instr} {e : Err} (hs : s.status = .running)
    (hat : HoldsAtPc s (encode i)) (h : exec i s = .next (raise e s)) : HaltsWith s e := by
  refine ⟨raise e s, ?_, rfl⟩
  rw [step_fetch_ok hs (fetch_of_holdsAtPc hat (decode_encode i)), h, handOver, emitTrace_raise]

theorem rejectsSelector {i : Instr} {b : Selector} {rest : List Selector}
    (hi : selectorsOf i = b :: rest) : RejectsSelector b i := fun _ hs hat hno =>
  haltsWith_of_exec_raise hs hat (exec_error_first hi (resolve_of_no_register hno))

theorem rejectsSecondSelector {i : Instr} {b c : Selector} (hi : selectorsOf i = [b, c]) :
    RejectsSecondSelector b c i := fun _ hs hat hb hno => by
  obtain ⟨d, hd⟩ := exists_resolve_of_register hb
  exact haltsWith_of_exec_raise hs hat (exec_error_second hi hd (resolve_of_no_register hno))

/-! ### The settled statements -/

/-- Settles O13: `withReg_writes` with the sum of the register and the literal. -/
theorem addRegImmAddsLiteral : Obligations.AddRegImmAddsLiteral := by
  refine fun rs imm8 =>
    ⟨rfl, fun s r hr => ?_, truncationOfThree rfl rfl, rejectsSelector rfl⟩
  obtain ⟨t, ht, hval, hpc, hframe⟩ :=
    withReg_writes 3 (fun r => add64 (getReg s r) (zext64 imm8)) hr
  refine ⟨t, ht, ?_, ?_, ?_, ?_, hpc, hframe⟩ <;> rw [hval]
  · rw [add64_toNat, zext64_toNat]
  · rintro rfl
    exact BitVec.add_zero _
  · rintro hmax rfl
    rw [hmax]; rfl
  · rintro hmax rfl
    rw [hmax]; rfl

/-- Settles O14: both operands are read before the write, so one register in both slots is no case
of its own. -/
theorem addRegRegAddsSecond : Obligations.AddRegRegAddsSecond := by
  refine fun rd rs2 => ⟨rfl, fun s d q hd hq => ?_, truncationOfThree rfl rfl, rejectsSelector rfl,
    rejectsSecondSelector rfl⟩
  obtain ⟨t, ht, hval, hpc, hframe⟩ :=
    withRegs_writes 3 (fun d q => add64 (getReg s d) (getReg s q)) hd hq
  exact ⟨t, ht, by rw [hval, add64_toNat], hpc, hframe⟩

/-- Settles O15: `withReg_writes` with the register's successor. -/
theorem incRegAddsOne : Obligations.IncRegAddsOne := by
  refine fun rs => ⟨rfl, fun s r hr => ?_, truncationOfTwo rfl, rejectsSelector rfl⟩
  obtain ⟨t, ht, hval, hpc, hframe⟩ := withReg_writes 2 (fun r => add64 (getReg s r) 1) hr
  refine ⟨t, ht, ?_, ?_, ?_, hpc, hframe⟩ <;> rw [hval]
  · exact add64_toNat _ 1
  · intro hmax
    rw [hmax]; rfl
  · intro hneg
    rw [hneg]; rfl

/-- Settles O16: `withReg_writes` with the register's predecessor. -/
theorem decRegSubtractsOne : Obligations.DecRegSubtractsOne := by
  refine fun rs => ⟨rfl, fun s r hr => ?_, truncationOfTwo rfl, rejectsSelector rfl⟩
  obtain ⟨t, ht, hval, hpc, hframe⟩ := withReg_writes 2 (fun r => sub64 (getReg s r) 1) hr
  refine ⟨t, ht, ?_, ?_, ?_, hpc, hframe⟩ <;> rw [hval]
  · exact sub64_toNat _ 1
  · intro hmin
    rw [hmin]; rfl
  · intro hzero
    rw [hzero]; rfl

/-- Settles O17: `withReg_writes` with the difference of the register and the literal. -/
theorem subRegImmSubtractsLiteral : Obligations.SubRegImmSubtractsLiteral := by
  refine fun rs imm8 =>
    ⟨rfl, fun s r hr => ?_, truncationOfThree rfl rfl, rejectsSelector rfl⟩
  obtain ⟨t, ht, hval, hpc, hframe⟩ :=
    withReg_writes 3 (fun r => sub64 (getReg s r) (zext64 imm8)) hr
  refine ⟨t, ht, ?_, ?_, ?_, ?_, hpc, hframe⟩ <;> rw [hval]
  · rw [sub64_toNat, zext64_toNat]
  · rintro rfl
    exact BitVec.sub_zero _
  · rintro hzero rfl
    rw [hzero]; rfl
  · rintro hmin rfl
    rw [hmin]; rfl

/-- Settles O18: the operand order is that of the two slots; both are read before the write. -/
theorem subRegRegSubtractsSecond : Obligations.SubRegRegSubtractsSecond := by
  refine fun rd rs2 => ⟨rfl, fun s d q hd hq => ?_, truncationOfThree rfl rfl, rejectsSelector rfl,
    rejectsSecondSelector rfl⟩
  obtain ⟨t, ht, hval, hpc, hframe⟩ :=
    withRegs_writes 3 (fun d q => sub64 (getReg s d) (getReg s q)) hd hq
  exact ⟨t, ht, by rw [hval, sub64_toNat], hpc, hframe⟩

/-- Settles O19: a literal is nonnegative, so a sum can leave the bounds only above and a difference
only below; inside them the wrap is the identity. -/
theorem signedReadingsWrap : Obligations.SignedReadingsWrap := by
  refine ⟨fun a b => ⟨s64_add64 a b, s64_sub64 a b⟩, fun a imm8 => ?_, rfl, rfl⟩
  obtain ⟨hlo, hhi⟩ := s64_bounds a
  rw [s64_add64, s64_sub64, s64_zext64]
  exact ⟨fun hmax => bmod_eq_self_of_bounds (by omega) hmax,
    fun hmin => bmod_eq_self_of_bounds hmin (by omega)⟩

/-- Settles O2: the words are encodings, but for an opcode without a schema and a word cut short. -/
theorem wordsOfTheSpecDecode : Obligations.WordsOfTheSpecDecode :=
  ⟨decode_encode (.movRegImm 0x02 0x05), decode_encode (.incReg 0x02),
    decode_encode (.cmpRegImm 0x02 0x03), decode_encode (.jzImm 0x00),
    decode_encode (.addRegReg 0x02 0x03), decode_encode (.jmpImm 0x0C),
    decode_unsupported rfl [], rfl⟩

/-- Settles O12, operation by operation. -/
theorem aluComputesModulo : Obligations.AluComputesModulo := fun a b =>
  ⟨add64_toNat a b, sub64_toNat a b, eq64_iff_toNat_eq a b⟩

end Sys2Proof.Machine

/-!
The statements about MOV: both forms write one register, so `withReg_writes`, `withRegs_writes` and
the lemmas about missing operand bytes and invalid selectors give all their clauses.
-/

namespace Sys2Proof.Machine

/-- Settles O20: `withReg_writes` with the widened literal, which ignores the register's old value. -/
theorem movRegImmLoadsLiteral : Obligations.MovRegImmLoadsLiteral := by
  refine fun rs imm8 =>
    ⟨rfl, fun s r hr => ?_, truncationOfThree rfl rfl, rejectsSelector rfl⟩
  obtain ⟨t, ht, hval, hpc, hframe⟩ := withReg_writes 3 (fun _ => zext64 imm8) hr
  exact ⟨t, ht, by rw [hval, zext64_toNat], hpc, hframe⟩

/-- Settles O21: `withRegs_writes` with the second register's value, read before the write. -/
theorem movRegRegCopiesSecond : Obligations.MovRegRegCopiesSecond := fun _ _ =>
  ⟨rfl, fun s _ _ hd hq => withRegs_writes 3 (fun _ q => getReg s q) hd hq,
    truncationOfThree rfl rfl, rejectsSelector rfl, rejectsSecondSelector rfl⟩

end Sys2Proof.Machine

/-!
The statements about comparing and jumping: first what a CMP's effect leaves unchanged, the jumps as
single writes of pc, and the fetch from beyond L; then the settled obligations.
-/

namespace Sys2Proof.Machine

/-! ### CMP (R131, R132) -/

/-- Writing the flag and advancing changes nothing else. -/
theorem onlyFlag_advance_setZf (n : Nat) (c : Bool) (s : State) :
    OnlyFlag s (advance n (setZf c s)) :=
  ⟨by simp, SameMemory.of_eq rfl, rfl, rfl, rfl⟩

theorem eq_zext64_iff (a : Word) (imm8 : Literal) : a = zext64 imm8 ↔ a.toNat = imm8.toNat := by
  rw [← BitVec.toNat_inj, zext64_toNat]

/-! ### JMP and JZ (R130, R133) -/

theorem onlyPc_setPc (target : Word) (s : State) : OnlyPc s (setPc target s) :=
  ⟨by simp, rfl, SameMemory.of_eq rfl, rfl, rfl, rfl⟩

/-- A JZ, taken or not, is one write of pc. -/
theorem exec_jzImm (imm8 : Literal) (s : State) :
    exec (.jzImm imm8) s = .next (setPc (pcAfter s (.jzImm imm8)) s) := by
  rw [exec, execJzImm, pcAfter]
  split <;> rfl

theorem pcAfter_jzImm_taken {s : State} (imm8 : Literal) (h : s.zf = true) :
    pcAfter s (.jzImm imm8) = jumpTarget imm8 := if_pos h

theorem pcAfter_jzImm_not_taken {s : State} (imm8 : Literal) (h : s.zf = false) :
    pcAfter s (.jzImm imm8) = s.pc + 2 := if_neg (by simp [h])

/-- The first byte read is the one missing (R151). -/
theorem fetch_error_of_pc_beyond {s : State} (h : s.mem.len ≤ s.pc.toNat) :
    fetch s = .error (.outOfBounds s.pc.toNat) := by
  have h0 : fetchByte s 0 = .error (.outOfBounds s.pc.toNat) := memRead_error h
  simp only [fetch, decodeFrom, h0]

/-- A jump to or beyond L is the error of the next fetch. -/
theorem haltsWith_of_jump_beyond {s : State} {imm8 : Literal} (hrun : s.status = .running)
    (hL : s.mem.len ≤ imm8.toNat) :
    HaltsWith (setPc (jumpTarget imm8) s) (.outOfBounds imm8.toNat) := by
  rw [← jumpTarget_toNat imm8] at hL ⊢
  exact haltsWith_of_fetch_error hrun (fetch_error_of_pc_beyond hL)

/-- What a JZ does after the effect of a CMP of the values `a` and `b`. -/
theorem exec_jzImm_after_compare (s : State) (a b : Word) (target : Literal) :
    ∃ u, exec (.jzImm target) (advance 3 (setZf (eq64 a b) s)) = .next u ∧ u.zf = eq64 a b ∧
      (a = b → u.pc.toNat = target.toNat) ∧ (a ≠ b → u.pc = s.pc + 5) := by
  refine ⟨_, exec_jzImm target _, rfl, fun heq => ?_, fun hne => ?_⟩
  · rw [setPc_pc, pcAfter_jzImm_taken target (by simp [eq64, heq]), jumpTarget_toNat]
  · rw [setPc_pc, pcAfter_jzImm_not_taken target (by simp [eq64, hne]), advance_pc, setZf_pc,
      BitVec.add_assoc]
    rfl

/-! ### The settled statements -/

/-- Settles O22: a JMP is one write of pc, and the step after it meets its target. -/
theorem jmpImmSetsPc : Obligations.JmpImmSetsPc := fun imm8 =>
  ⟨rfl, fun s => ⟨_, rfl, jumpTarget_toNat imm8, onlyPc_setPc _ s, haltsWith_of_jump_beyond⟩,
    truncationOfTwo rfl⟩

/-- Settles O23: equal patterns are equal numbers, and a widened literal keeps its number. -/
theorem cmpRegImmSetsFlag : Obligations.CmpRegImmSetsFlag := fun _ imm8 =>
  ⟨rfl, fun s _ hr => ⟨_, withReg_ok _ hr, eq64_eq_decide (eq_zext64_iff _ imm8), rfl,
      onlyFlag_advance_setZf 3 _ s⟩,
    truncationOfThree rfl rfl, rejectsSelector rfl⟩

/-- Settles O24: equal patterns are equal numbers. -/
theorem cmpRegRegSetsFlag : Obligations.CmpRegRegSetsFlag := fun _ _ =>
  ⟨rfl, fun s _ _ hd hq => ⟨_, withRegs_ok _ hd hq, eq64_eq_decide BitVec.toNat_inj.symm, rfl,
      onlyFlag_advance_setZf 3 _ s⟩,
    truncationOfThree rfl rfl, rejectsSelector rfl, rejectsSecondSelector rfl⟩

/-- Settles O25: a JZ is one write of pc, to the literal or past its two bytes by the flag. -/
theorem jzImmJumpsIfFlag : Obligations.JzImmJumpsIfFlag := by
  refine fun imm8 => ⟨rfl, fun s => ⟨_, exec_jzImm imm8 s, onlyPc_setPc _ s, fun hz => ?_,
    pcAfter_jzImm_not_taken imm8⟩, truncationOfTwo rfl⟩
  rw [pcAfter_jzImm_taken imm8 hz]
  exact ⟨jumpTarget_toNat imm8, haltsWith_of_jump_beyond⟩

/-- Settles O26: both forms of CMP come down to `exec_jzImm_after_compare`. -/
theorem jzFollowsCmp : Obligations.JzFollowsCmp := by
  constructor
  · intro s t rs imm8 target r hr ht
    obtain rfl := Host.Outcome.next.inj ((withReg_ok _ hr).symm.trans ht)
    rw [ne_eq, ← eq_zext64_iff]
    exact exec_jzImm_after_compare s (getReg s r) (zext64 imm8) target
  · intro s t rd rs2 target d q hd hq ht
    obtain rfl := Host.Outcome.next.inj ((withRegs_ok _ hd hq).symm.trans ht)
    exact exec_jzImm_after_compare s (getReg s d) (getReg s q) target

end Sys2Proof.Machine

/-!
The statements about errors, halting and the trace: first that a halting step is error entry alone,
for an error of the fetch or an invalid selector, then which errors a fetch has, that a running block
always steps, and that a step forgets what the trace port held; then the settled obligations.
-/

namespace Sys2Proof.Machine

/-! ### Error entry (R156) -/

/-- A step that ends halted is error entry, for an error of the fetch or for an invalid selector of
the fetched instruction. -/
theorem step_halts_cases {s t : State} {e : Err} (h : step s = .next t)
    (ht : t.status = .halted e) :
    s.status = .running ∧ t = raise e s ∧
      (fetch s = .error e ∨ ∃ i b, fetch s = .ok i ∧ b ∈ selectorsOf i ∧
        (∀ r, b ≠ selByte s.sel r) ∧ e = .invalidRegister b) := by
  obtain ⟨hrun, ⟨e', hf, rfl⟩ | ⟨i, b, hf, hmem, hno, rfl⟩ | ⟨i, u, -, -, hc, rfl⟩⟩ := step_cases h
  · cases ht
    exact ⟨hrun, rfl, .inl hf⟩
  · cases ht
    exact ⟨hrun, rfl, .inr ⟨i, b, hf, hmem, hno, rfl⟩⟩
  · rw [emitTrace_status, hc.status, hrun] at ht
    cases ht

/-- An error other than InvalidRegister is one of the fetch. -/
theorem haltsWith_iff_fetch_error {s : State} {e : Err} (hs : s.status = .running)
    (he : e.kind ≠ .invalidRegister) : HaltsWith s e ↔ fetch s = .error e := by
  refine ⟨fun ⟨t, hstep, ht⟩ => ?_, haltsWith_of_fetch_error hs⟩
  obtain ⟨-, -, hf | ⟨i, b, -, -, -, rfl⟩⟩ := step_halts_cases hstep ht
  · exact hf
  · exact absurd rfl he

/-! ### The errors of a fetch (R151, R153) -/

theorem fetch_unsupported {s : State} {op : Byte} (hop : memRead s.mem s.pc.toNat = .ok op)
    (hnone : schemaOf op = none) : fetch s = .error (.unsupportedInstruction op) := by
  have h0 : fetchByte s 0 = .ok op := hop
  simp only [fetch, decodeFrom, h0, hnone]

theorem fetch_unsupported_iff {s : State} {op : Byte} :
    fetch s = .error (.unsupportedInstruction op) ↔
      memRead s.mem s.pc.toNat = .ok op ∧ schemaOf op = none := by
  refine ⟨fun h => ?_, fun ⟨hop, hnone⟩ => fetch_unsupported hop hnone⟩
  obtain ⟨-, he⟩ | ⟨op', hop, ⟨hnone, he⟩ | ⟨_, -, ⟨-, he⟩ | ⟨-, -, -, he⟩⟩⟩ := fetch_error_cases h
  all_goals cases he
  exact ⟨hop, hnone⟩

/-- The addresses a fetch reports, in the order of its reads. -/
theorem fetch_outOfBounds_cases {s : State} {a : Nat} (h : fetch s = .error (.outOfBounds a)) :
    (a = s.pc.toNat ∧ s.mem.len ≤ s.pc.toNat) ∨
      (a = s.pc.toNat + 1 ∧ s.mem.len ≤ s.pc.toNat + 1 ∧
        ∃ op schema, memRead s.mem s.pc.toNat = .ok op ∧ schemaOf op = some schema) ∨
      (a = s.pc.toNat + 2 ∧ s.pc.toNat + 1 < s.mem.len ∧ s.mem.len ≤ s.pc.toNat + 2 ∧
        ∃ op schema, memRead s.mem s.pc.toNat = .ok op ∧ schemaOf op = some schema ∧
          schemaLength schema = 3) := by
  obtain ⟨hL, he⟩ | ⟨op, hop, ⟨-, he⟩ | ⟨schema, hs, ⟨hL, he⟩ | ⟨hlen, hin, hL, he⟩⟩⟩ :=
    fetch_error_cases h
  all_goals cases he
  · exact .inl ⟨rfl, hL⟩
  · exact .inr (.inl ⟨rfl, hL, op, schema, hop, hs⟩)
  · exact .inr (.inr ⟨rfl, hin, hL, op, schema, hop, hs, hlen⟩)

/-- Selectors are resolved after the fetch (R72 action 4). -/
theorem fetch_ne_invalidRegister (s : State) (b : Selector) :
    fetch s ≠ .error (.invalidRegister b) := by
  intro h
  obtain ⟨-, he⟩ | ⟨op, -, ⟨-, he⟩ | ⟨_, -, ⟨-, he⟩ | ⟨-, -, -, he⟩⟩⟩ := fetch_error_cases h
  all_goals cases he

/-! ### A running block always steps (R157) -/

theorem step_next_of_running {s : State} (hs : s.status = .running) : ∃ t, step s = .next t := by
  rcases hf : fetch s with e | i
  · exact ⟨_, step_fetch_error hs hf⟩
  · obtain ⟨u, hu⟩ := exec_next i s
    exact ⟨emitTrace i u, by rw [step_fetch_ok hs hf, hu, handOver]⟩

/-! ### The trace port (R162) -/

/-- The state with nothing on the trace port. Every change of the port's content clears to it. -/
def clearTrace (s : State) : State := { s with trace := none }

@[simp] theorem raise_clearTrace (e : Err) (s : State) : raise e (clearTrace s) = raise e s := rfl

/-- The port is overwritten, by a snapshot that does not look at it or by nothing. -/
@[simp] theorem emitTrace_clearTrace (i : Instr) (s : State) :
    emitTrace i (clearTrace s) = emitTrace i s := by
  obtain ⟨mem, gpr, pc, zf, status, trace, sel⟩ := s
  cases status <;> rfl

/-- An execution does not look at the trace port: it commutes with clearing it. -/
theorem exec_clearTrace (i : Instr) (s : State) :
    exec i (clearTrace s) = mapNext clearTrace (exec i s) := by
  cases i with
  | jmpImm imm8 => rfl
  | jzImm imm8 => simp only [exec_jzImm, mapNext]; rfl
  | addRegImm | subRegImm | movRegImm | cmpRegImm | incReg | decReg =>
    exact withReg_map _ rfl (fun _ => rfl) fun r => by cases r <;> rfl
  | addRegReg | subRegReg | movRegReg | cmpRegReg =>
    exact withRegs_map _ rfl (fun _ => rfl) fun d q => by cases d <;> cases q <;> rfl

theorem step_clearTrace (s : State) : step (clearTrace s) = step s := by
  rcases hs : s.status with _ | e
  · rcases hf : fetch s with e | i
    · rw [step_fetch_error hs hf, step_fetch_error (s := clearTrace s) hs hf, raise_clearTrace]
    · obtain ⟨u, hu⟩ := exec_next i s
      rw [step_fetch_ok hs hf, step_fetch_ok (s := clearTrace s) hs hf, exec_clearTrace, hu]
      simp only [mapNext, handOver, emitTrace_clearTrace]
  · rw [step_halted hs, step_halted (s := clearTrace s) hs]

/-! ### The settled statements -/

/-- Settles O34: OutOfBounds is an error of the fetch, which reads pc, pc + 1 and pc + 2 in order. -/
theorem outOfBoundsInThreePlaces : Obligations.OutOfBoundsInThreePlaces := by
  refine ⟨fun m a hL => ⟨memRead_error hL, fun v => memWrite_error v hL⟩,
    fun s a hs => ⟨fun h => ?_, ?_⟩, rfl⟩
  · exact fetch_outOfBounds_cases ((haltsWith_iff_fetch_error hs (by simp [Err.kind])).mp h)
  · rintro (⟨rfl, hL⟩ | ⟨rfl, hL, op, schema, hop, hschema⟩ |
      ⟨rfl, hin, hL, op, schema, hop, hschema, hlen⟩)
    · exact haltsWith_of_fetch_error hs (fetch_error_of_pc_beyond hL)
    · exact haltsWith_of_first_operand_missing hs hop hschema hL
    · exact haltsWith_of_second_operand_missing hs hop hschema hlen hin hL

/-- Settles O35: no fetch raises InvalidRegister, and an execution that commits has resolved every
selector. -/
theorem invalidRegisterCause : Obligations.InvalidRegisterCause := by
  refine ⟨fun s b ⟨t, hstep, ht⟩ => ?_, fun s i hs hf ⟨b, hb, hno⟩ => ?_, fun i => ?_⟩
  · obtain ⟨-, -, hf | ⟨i, c, hf, hmem, hno, he⟩⟩ := step_halts_cases hstep ht
    · exact absurd hf (fetch_ne_invalidRegister s b)
    · cases he
      exact ⟨i, hf, hmem, hno⟩
  · obtain ⟨u, hu⟩ := exec_next i s
    rcases exec_cases hu with ⟨c, hmem, hnoc, rfl⟩ | hc
    · exact ⟨c, hmem, hnoc, haltsWith_of_exec_raise hs (holdsAtPc_of_fetch_ok hf) hu⟩
    · obtain ⟨r, hr⟩ := hc.selectors b hb
      exact absurd (resolve_eq_ok hr) (hno r)
  · cases i <;> simp [selectorsOf, isJump]

/-- Settles O36: UnsupportedInstruction is an error of the fetch, for an opcode byte without a
schema. -/
theorem unsupportedInstructionCause : Obligations.UnsupportedInstructionCause := by
  intro s op hs
  rw [haltsWith_iff_fetch_error hs (by simp [Err.kind]), fetch_unsupported_iff, schemaOf_eq_none_iff]

/-- Settles O37: the error at each place, where the places before it raise none. -/
theorem errorPriority : Obligations.ErrorPriority := by
  refine fun s hs => ⟨fun hL => ?_, fun op hop => ⟨fun hnone => ?_, fun schema hschema =>
    ⟨haltsWith_of_first_operand_missing hs hop hschema,
      haltsWith_of_second_operand_missing hs hop hschema⟩⟩, fun i hat =>
    ⟨fun b rest hi => rejectsSelector hi s hs hat, fun b c hi => rejectsSecondSelector hi s hs hat⟩⟩
  · exact haltsWith_of_fetch_error hs (fetch_error_of_pc_beyond hL)
  · exact haltsWith_of_fetch_error hs (fetch_unsupported hop hnone)

/-- Settles O38: a step that ends halted is `raise`, which writes the status and the trace port. -/
theorem errorEntryIsPrecise : Obligations.ErrorEntryIsPrecise := by
  intro s t e hstep ht
  obtain ⟨hrun, rfl, -⟩ := step_halts_cases hstep ht
  exact ⟨hrun, fun r => getReg_raise s r e, rfl, rfl, .of_eq rfl, rfl, rfl⟩

/-- Settles O39, by the two values of the status. -/
theorem runningStepsHaltedStops : Obligations.RunningStepsHaltedStops := by
  refine ⟨fun s => ⟨fun ⟨t, h⟩ => (step_cases h).1, step_next_of_running⟩, fun s e => step_halted,
    fun s x h => ?_⟩
  rcases hs : s.status with _ | e
  · obtain ⟨t, ht⟩ := step_next_of_running hs
    rw [ht] at h
    cases h
  · rw [step_halted hs] at h
    cases h

/-- Settles O40: the step handed over the snapshot of the fetched instruction after its effect. -/
theorem traceAfterCompletedStep : Obligations.TraceAfterCompletedStep := by
  intro s i t hcomp
  obtain ⟨u, -, hc, rfl⟩ := hcomp.commits
  obtain ⟨hrun, hf, -, -⟩ := hcomp
  have hbytes := snapshot_bytes i u
  rw [emitTrace_running u i (hc.status.trans hrun)]
  exact ⟨snapshot i u, rfl, hbytes.symm, hbytes ▸ holdsAtPc_of_fetch_ok hf, rfl, rfl, rfl⟩

/-- Settles O41: both states clear to the same one, and clearing the port does not change the step. -/
theorem traceIsOutputOnly : Obligations.TraceIsOutputOnly := fun s x =>
  (step_clearTrace { s with trace := x }).symm.trans (step_clearTrace s)

end Sys2Proof.Machine

/-!
The statements about the load and about one register in both slots: first that bytes placed in
memory read back and are what the fetch decodes, what start-up answers for an admissible and an
oversized image, and that a loaded block meets the invariant; then the settled obligations.
-/

namespace Sys2Proof.Machine

/-! ### Bytes placed for the next fetch (R72, log entry 2) -/

/-- Placing a byte keeps what reads in bounds at every other address. -/
theorem memRead_pokeByte_other {m : Memory} {a b : Nat} {v w : Byte} (hwf : m.wf = true)
    (hb : b ≠ a) (h : memRead m b = .ok w) : memRead (pokeByte m a v) b = .ok w := by
  have hlt := memRead_eq_ok h
  rw [memRead_pokeByte a v b hwf, if_neg hb, if_pos (lt_max_of_lt_left hlt), ← memRead_ok hlt, h]

/-- Placing bytes keeps what reads in bounds below them. -/
theorem memRead_pokeBytes_below {m : Memory} {a b : Nat} {w : Byte} (bytes : List Byte)
    (hwf : m.wf = true) (hb : b < a) (h : memRead m b = .ok w) :
    memRead (pokeBytes m a bytes) b = .ok w := by
  induction bytes generalizing m a with
  | nil => exact h
  | cons v rest ih =>
    exact ih (pokeByte_wf a v hwf) (Nat.lt_succ_of_lt hb) (memRead_pokeByte_other hwf hb.ne h)

/-- Placed bytes read back: each is placed at its address, and the later ones lie above it. -/
theorem memRead_pokeBytes {m : Memory} (a : Nat) {bytes : List Byte} (hwf : m.wf = true) (k : Nat)
    (hk : k < bytes.length) : memRead (pokeBytes m a bytes) (a + k) = .ok bytes[k] := by
  induction bytes generalizing m a k with
  | nil => cases hk
  | cons v rest ih =>
    have hwf' := pokeByte_wf a v hwf
    cases k with
    | zero =>
      have hv : memRead (pokeByte m a v) a = .ok v := by rw [memRead_pokeByte a v a hwf, if_pos rfl]
      exact memRead_pokeBytes_below rest hwf' a.lt_succ_self hv
    | succ k =>
      rw [show a + (k + 1) = a + 1 + k by omega]
      exact ih (a + 1) hwf' k (Nat.lt_of_succ_lt_succ hk)

theorem holdsAtPc_withFetchWord {s : State} (nbits w : Nat) (hwf : s.mem.wf = true) :
    HoldsAtPc (s.withFetchWord nbits w) (tableBytes nbits w) :=
  memRead_pokeBytes s.pc.toNat hwf

/-- Three bytes at pc decide the fetch, its errors included. -/
theorem fetch_eq_decode_of_holdsAtPc {s : State} {bytes : List Byte} (hat : HoldsAtPc s bytes)
    (hlen : 3 ≤ bytes.length) : fetch s = decode bytes := by
  have hread (k : Nat) (hk : k < bytes.length) : fetchByte s k = byteAt bytes k :=
    (hat k hk).trans (byteAt_eq_ok.mpr (List.getElem?_eq_getElem hk)).symm
  exact decodeFrom_congr (hread 0 (by omega)) (hread 1 (by omega)) (hread 2 (by omega))

/-! ### Start-up (R182) -/

theorem startUp_admissible {m : SelMap} {image : List Byte} (hm : m.wf = true)
    (hlen : image.length ≤ maxImageLen) : startUp m (some image) = .next (load m image) := by
  simp [startUp, hm, imageFits, hlen]

theorem startUp_oversized {m : SelMap} {image : List Byte} (hm : m.wf = true)
    (hlen : maxImageLen < image.length) : startUp m (some image) = .refused .imageTooLarge := by
  simp [startUp, hm, imageFits, hlen]

/-- The model's reset state is the load of the empty image under the default SEL (log entry 2). -/
theorem load_empty : load defaultSel [] = State.reset := rfl

theorem inv_load {m : SelMap} {image : List Byte} (hm : m.wf = true)
    (hlen : image.length ≤ maxImageLen) : (load m image).Inv := by
  have hpc : pcInRange (load m image) = true := decide_eq_true (Nat.zero_le _)
  exact ⟨imageMemory_wf image, hlen, hm, hpc, rfl, rfl⟩

/-! ### The settled statements -/

/-- Settles O9: every byte of the image reads back, no step writes memory, and start-up checks the
bound. -/
theorem loadCopiesTheImage : Obligations.LoadCopiesTheImage :=
  ⟨fun _ _ => ⟨rfl, fun _ => memRead_imageMemory, fun _ hL => memRead_error hL⟩,
    fun _ _ h => congrArg Memory.len (step_mem h), fun _ _ => startUp_oversized⟩

/-- Settles O27: the forms that write a register by `withRegs_writes`, whose values are read before
the write; MOV writes the value that stands there already. -/
theorem sameRegisterForms : Obligations.SameRegisterForms := by
  intro s b r hr
  refine ⟨?_, ?_, ?_, ?_⟩
  · obtain ⟨t, ht, hval, -, -, hzf, -⟩ :=
      withRegs_writes 3 (fun d q => add64 (getReg s d) (getReg s q)) hr hr
    exact ⟨t, ht, by rw [hval, add64_toNat, two_mul], hzf⟩
  · obtain ⟨t, ht, hval, -, -, hzf, -⟩ :=
      withRegs_writes 3 (fun d q => sub64 (getReg s d) (getReg s q)) hr hr
    exact ⟨t, ht, hval.trans (BitVec.sub_self _), hzf⟩
  · obtain ⟨t, ht, hval, -, hother, hzf, -⟩ := withRegs_writes 3 (fun _ q => getReg s q) hr hr
    refine ⟨t, ht, fun q => ?_, hzf⟩
    by_cases hq : q = r
    · rw [hq, hval]
    · exact hother q hq
  · obtain ⟨hregs, -⟩ := onlyFlag_advance_setZf 3 (eq64 (getReg s r) (getReg s r)) s
    exact ⟨_, withRegs_ok _ hr hr, hregs, (eq64_iff_toNat_eq _ _).mpr rfl⟩

/-- Settles O44: the word's three bytes stand at pc, and they are all that the fetch reads. -/
theorem fetchWordIsFetched : Obligations.FetchWordIsFetched := fun _ nbits w hwf =>
  ⟨fetch_eq_decode_of_holdsAtPc (holdsAtPc_withFetchWord nbits w hwf) le_rfl, rfl⟩

/-- Settles O11: an admissible image starts as its load, and in an empty one pc is at L. -/
theorem startUpSequence : Obligations.StartUpSequence :=
  ⟨fun _ => rfl, fun _ _ => startUp_admissible, startUp_admissible rfl (Nat.zero_le _),
    fun m => haltsWith_of_fetch_error (load_status m []) (fetch_error_of_pc_beyond le_rfl)⟩

/-- Settles O43: `inv_load`, also for the empty image. -/
theorem loadedBlockMeetsInvariant : Obligations.LoadedBlockMeetsInvariant := by
  refine ⟨fun _ _ => inv_load, ?_⟩
  rw [← load_empty]
  exact inv_load rfl (Nat.zero_le _)

end Sys2Proof.Machine
